-- ==== Sys2Proof/Word.lean ====
section
/-! DEFINITION. The two word sizes of the Rua-1 (`00_scope.md` rules R2, R7: `DATA_WIDTH`, `ADDR_WIDTH`). -/

namespace Sys2Proof

/-- A byte: the data bus, every 8-bit register and one memory cell (rules R2, R60). -/
abbrev Byte := BitVec 8

/-- A 16-bit address (rules R2, R60). -/
abbrev Addr := BitVec 16

end Sys2Proof
end

