-- ==== Sys2Proof/Syntax.lean ====
section
/-! DEFINITION. The instructions of the Rua-1 as terms: one constructor of `Instr` per row of `spec/opcode_table.json`
(`30_encoding.md` rule R105), the registers an operand can name, the form of an instruction and its format. -/

namespace Sys2Proof

/-- The six 8-bit registers a `reg` operand can name (`10_state.md` rule R20). -/
inductive Reg where
  | a | b | x | y | sp | sr
  deriving DecidableEq, Repr

/-- The eight instruction formats (`30_encoding.md` rule R92). -/
inductive Format where
  | op | opA16 | opR | opI8 | opRR | opRI8 | opRA16 | opA16R
  deriving DecidableEq, Repr

/-- The 51 instruction forms (`30_encoding.md` rule R105), by their form ids of rule R98. -/
inductive Form where
  | movRR | movRI | movRA | movAR | jmp | jo | jno | js
  | jns | je | jne | jb | jnb | jbe | ja | jl
  | jge | jle | jg | addR | addA | subR | subA | adcR
  | adcA | lshR | lshA | rshR | rshA | orR | orA | andR
  | andA | xorR | xorA | cmp | inc | dec | callA | ret
  | pushI | pushR | pushA | popR | popA | intR | intI | iret
  | cli | sei | hlt
  deriving DecidableEq, Repr

/-- The instructions, in the order of rule R105. In a two-operand form the destination comes first (rule R102). -/
inductive Instr where
  /-- `MOV reg, reg` (rule R130). -/
  | movRR (rd : Reg) (rs : Reg)
  /-- `MOV reg, imm8` (rule R131). -/
  | movRI (rd : Reg) (imm : Byte)
  /-- `MOV reg, adr` (rule R132). -/
  | movRA (rd : Reg) (adr : Addr)
  /-- `MOV adr, reg` (rule R133). -/
  | movAR (adr : Addr) (rs : Reg)
  /-- `JMP adr` (rule R141). -/
  | jmp (adr : Addr)
  /-- `JO adr` (rule R142). -/
  | jo (adr : Addr)
  /-- `JNO adr` (rule R143). -/
  | jno (adr : Addr)
  /-- `JS adr` (rule R144). -/
  | js (adr : Addr)
  /-- `JNS adr` (rule R145). -/
  | jns (adr : Addr)
  /-- `JE adr` (rule R146). -/
  | je (adr : Addr)
  /-- `JNE adr` (rule R147). -/
  | jne (adr : Addr)
  /-- `JB adr` (rule R148). -/
  | jb (adr : Addr)
  /-- `JNB adr` (rule R149). -/
  | jnb (adr : Addr)
  /-- `JBE adr` (rule R150). -/
  | jbe (adr : Addr)
  /-- `JA adr` (rule R151). -/
  | ja (adr : Addr)
  /-- `JL adr` (rule R152). -/
  | jl (adr : Addr)
  /-- `JGE adr` (rule R153). -/
  | jge (adr : Addr)
  /-- `JLE adr` (rule R154). -/
  | jle (adr : Addr)
  /-- `JG adr` (rule R155). -/
  | jg (adr : Addr)
  /-- `ADD reg` (rule R166). -/
  | addR (rd : Reg)
  /-- `ADD adr` (rule R166). -/
  | addA (adr : Addr)
  /-- `SUB reg` (rule R167). -/
  | subR (rd : Reg)
  /-- `SUB adr` (rule R167). -/
  | subA (adr : Addr)
  /-- `ADC reg` (rule R168). -/
  | adcR (rd : Reg)
  /-- `ADC adr` (rule R168). -/
  | adcA (adr : Addr)
  /-- `LSH reg` (rule R169). -/
  | lshR (rd : Reg)
  /-- `LSH adr` (rule R169). -/
  | lshA (adr : Addr)
  /-- `RSH reg` (rule R170). -/
  | rshR (rd : Reg)
  /-- `RSH adr` (rule R170). -/
  | rshA (adr : Addr)
  /-- `OR reg` (rule R171). -/
  | orR (rd : Reg)
  /-- `OR adr` (rule R171). -/
  | orA (adr : Addr)
  /-- `AND reg` (rule R172). -/
  | andR (rd : Reg)
  /-- `AND adr` (rule R172). -/
  | andA (adr : Addr)
  /-- `XOR reg` (rule R173). -/
  | xorR (rd : Reg)
  /-- `XOR adr` (rule R173). -/
  | xorA (adr : Addr)
  /-- `CMP` (rule R174). -/
  | cmp
  /-- `INC` (rule R175). -/
  | inc
  /-- `DEC` (rule R176). -/
  | dec
  /-- `CALL adr` (rule R194). -/
  | callA (adr : Addr)
  /-- `RET` (rule R195). -/
  | ret
  /-- `PUSH imm8` (rule R196). -/
  | pushI (imm : Byte)
  /-- `PUSH reg` (rule R197). -/
  | pushR (rs : Reg)
  /-- `PUSH adr` (rule R198). -/
  | pushA (adr : Addr)
  /-- `POP reg` (rule R199). -/
  | popR (rd : Reg)
  /-- `POP adr` (rule R200). -/
  | popA (adr : Addr)
  /-- `INT reg` (rule R210). -/
  | intR (rs : Reg)
  /-- `INT imm8` (rule R211). -/
  | intI (imm : Byte)
  /-- `IRET` (rule R212). -/
  | iret
  /-- `CLI` (rule R213). -/
  | cli
  /-- `SEI` (rule R214). -/
  | sei
  /-- `HLT` (rule R220). -/
  | hlt
  deriving DecidableEq, Repr

/-- The form of an instruction: the instruction less its operands. -/
def Instr.form : Instr → Form
  | .movRR _ _ => .movRR
  | .movRI _ _ => .movRI
  | .movRA _ _ => .movRA
  | .movAR _ _ => .movAR
  | .jmp _ => .jmp
  | .jo _ => .jo
  | .jno _ => .jno
  | .js _ => .js
  | .jns _ => .jns
  | .je _ => .je
  | .jne _ => .jne
  | .jb _ => .jb
  | .jnb _ => .jnb
  | .jbe _ => .jbe
  | .ja _ => .ja
  | .jl _ => .jl
  | .jge _ => .jge
  | .jle _ => .jle
  | .jg _ => .jg
  | .addR _ => .addR
  | .addA _ => .addA
  | .subR _ => .subR
  | .subA _ => .subA
  | .adcR _ => .adcR
  | .adcA _ => .adcA
  | .lshR _ => .lshR
  | .lshA _ => .lshA
  | .rshR _ => .rshR
  | .rshA _ => .rshA
  | .orR _ => .orR
  | .orA _ => .orA
  | .andR _ => .andR
  | .andA _ => .andA
  | .xorR _ => .xorR
  | .xorA _ => .xorA
  | .cmp => .cmp
  | .inc => .inc
  | .dec => .dec
  | .callA _ => .callA
  | .ret => .ret
  | .pushI _ => .pushI
  | .pushR _ => .pushR
  | .pushA _ => .pushA
  | .popR _ => .popR
  | .popA _ => .popA
  | .intR _ => .intR
  | .intI _ => .intI
  | .iret => .iret
  | .cli => .cli
  | .sei => .sei
  | .hlt => .hlt

end Sys2Proof
end

