-- ==== Sys2Proof/Config.lean ====
section
/-! DEFINITION. What the platform and the source's silence leave open: the `OPEN` parameters of `00_scope.md` rule R7 as
plain data, which `State` carries and no instruction changes, and the free values for what the spec calls `any` (rule R17),
which are constants without a body: nothing in Lean can tell what they are. -/

namespace Sys2Proof

/-- What an address is under `MEM_MAP` (`20_memory.md` rule R69). -/
inductive MemKind where
  /-- A plain read-write byte (rule R64). -/
  | ram
  /-- Reads as ram; a write has no meaning. -/
  | rom
  /-- Nothing is there; any access has no meaning. -/
  | absent
  /-- A device, whose behaviour is outside the spec. -/
  | device
  deriving DecidableEq, Repr

/-- A run of `size` addresses from `base`, all of one kind. -/
structure MemRegion where
  base : Addr
  size : Nat
  kind : MemKind
  deriving DecidableEq, Repr

/-- The shapes `INT_TARGET` can have (`44_interrupt.md` rule R215). `uninterpreted` is the parameter left fully open;
`table` and `entries` are the two shapes the rule names as ones a platform might choose; `absent` is a platform that has no
`INT_TARGET`, on which INT is refused. -/
inductive IntTarget where
  | absent
  | uninterpreted
  /-- A table of 16-bit little-endian handler addresses at `base`. -/
  | table (base : Addr)
  /-- Fixed entry points, `stride` bytes apart, from `base`. -/
  | entries (base stride : Addr)
  deriving DecidableEq, Repr

/-- The `OPEN` parameters of rule R7, constant for a run. -/
structure Config where
  /-- `OPCODE_MAP`: the opcode bytes of the forms the source gives none (`30_encoding.md` rule R98). -/
  opcodeMap : List (Form × Byte)
  /-- `REG_CODE(X)` (`30_encoding.md` rule R95). -/
  regX : Byte
  /-- `REG_CODE(Y)` (rule R95). -/
  regY : Byte
  /-- `REG_CODE(SP)` (rule R95). -/
  regSP : Byte
  /-- `REG_CODE(SR)` (rule R95). -/
  regSR : Byte
  /-- `STACK_PAGE`: the high byte of every stack address (`43_stack.md` rule R190). -/
  stackPage : Byte
  /-- `INT_TARGET` (`44_interrupt.md` rule R215). -/
  intTarget : IntTarget
  /-- `RESET_PC` (`70_reset_and_hazards.md` rule R260). -/
  resetPc : Addr
  /-- `MEM_MAP`: the first region that holds an address gives its kind; an address in none is ram (`20_memory.md` rule R69). -/
  memMap : List MemRegion
  deriving DecidableEq, Repr

/-- The parameters `State.reset` takes: an empty `OPCODE_MAP`, so that exactly the 16 opcodes the source assigns are read from
bytes (rule R5 (a)), and the default `MEM_MAP` of rule R69. DESIGN CHOICE (log 2 to 6): every other field is a value the spec
leaves open; statements are about every `Config`, not about this one. -/
def Config.default : Config :=
  { opcodeMap := []
    regX := 0xF0
    regY := 0xF1
    regSP := 0xF2
    regSR := 0xF3
    stackPage := 0x00
    intTarget := .uninterpreted
    resetPc := 0x0000
    memMap := [] }

/-- `INT_TARGET(n, Mem)` where the platform's function is left open (rule R215): the vector number and the bytes memory holds. -/
opaque Config.intTargetFn : Byte → List (Nat × Byte) → Addr

/-- Bits 6, 5, 4 of SR as a read of the whole register delivers them (`10_state.md` rule R32), at each draw. -/
opaque Config.anyStatusBits : Nat → BitVec 3

/-- `SHIFT_CF`: CF after LSH and RSH (`42_alu.md` rule R163), at each draw. -/
opaque Config.anyShiftCarry : Nat → Bool

/-- `SHIFT_OF`: OF after LSH and RSH (`42_alu.md` rule R163), at each draw. -/
opaque Config.anyShiftOverflow : Nat → Bool

/-- A byte of memory that nothing has written (`00_scope.md` rule R17, `10_state.md` rule R44), at each draw. -/
opaque Config.anyByte : Nat → Byte

end Sys2Proof
end

