-- ==== Sys2Proof/WellFormed.lean ====
section
/-! DEFINITION. When a platform's parameters are ones the spec admits, and when an instruction term has an encoding under them. -/

namespace Sys2Proof

/-- Whether a form is one of the 35 that the source gives no opcode byte (`30_encoding.md` rule R98). -/
def Form.isOpen : Form → Bool
  | .jmp | .jo | .jno | .js | .jns | .je | .jne | .jb | .jnb | .jbe
  | .ja | .jl | .jge | .jle | .jg | .hlt => false
  | .movRR | .movRI | .movRA | .movAR | .addR | .addA | .subR | .subA | .adcR | .adcA
  | .lshR | .lshA | .rshR | .rshA | .orR | .orA | .andR | .andA | .xorR | .xorA
  | .cmp | .inc | .dec | .callA | .ret | .pushI | .pushR | .pushA | .popR | .popA
  | .intR | .intI | .iret | .cli | .sei => true

/-- Whether an opcode byte is one of the 240 the source leaves blank: 0x00 to 0xCF, 0xDF to 0xFE (`30_encoding.md` rule R97). -/
def opcodeIsBlank (op : Byte) : Bool :=
  decide (op.toNat ≤ 0xCF) || (decide (0xDF ≤ op.toNat) && decide (op.toNat ≤ 0xFE))

/-- No two entries of a list are equal. -/
def allDistinct {α : Type} [DecidableEq α] : List α → Bool
  | [] => true
  | v :: vs => !vs.contains v && allDistinct vs

/-- `OPCODE_MAP` is a partial injective map from the 35 forms to the 240 blank bytes (`30_encoding.md` rule R98). -/
def opcodeMapOk (m : List (Form × Byte)) : Bool :=
  m.all (fun e => e.1.isOpen && opcodeIsBlank e.2)
    && allDistinct (m.map Prod.fst) && allDistinct (m.map Prod.snd)

/-- The four `OPEN` register codes are distinct bytes, none of them 0x00 or 0x01 (`30_encoding.md` rule R95). -/
def Config.regCodesOk (c : Config) : Bool :=
  allDistinct [0x00, 0x01, c.regX, c.regY, c.regSP, c.regSR]

/-- A region of `MEM_MAP` lies inside the 65536 addresses (`20_memory.md` rule R60). -/
def MemRegion.wf (r : MemRegion) : Bool :=
  decide (r.base.toNat + r.size ≤ 65536)

/-- The parameters are ones rule R7 admits. -/
def Config.wf (c : Config) : Bool :=
  opcodeMapOk c.opcodeMap && c.regCodesOk && c.memMap.all MemRegion.wf

/-- An instruction is well formed under `c` when its form has an opcode byte there: the source's, or one of `OPCODE_MAP`
(`30_encoding.md` rules R96, R98). Its operands are well formed by their types. -/
def Instr.wf (c : Config) (i : Instr) : Bool :=
  !i.form.isOpen || (c.opcodeMap.map Prod.fst).contains i.form

end Sys2Proof
end

