-- ==== Sys2Proof/Decode.lean ====
section
/-! DEFINITION. From bytes to instructions and back (`30_encoding.md`): the opcode table, register codes, the decoder, total
on any bytes, the encoder, and the byte-order helpers they share with the machine. -/

namespace Sys2Proof

/-- Why bytes spell no instruction. -/
inductive DecodeError where
  /-- The bytes end inside the instruction. Safe: no meaning is given. -/
  | truncated
  /-- The opcode byte is neither one of rule R96 nor in `OPCODE_MAP` (rule R99). Safe. -/
  | illegalOpcode (op : Byte)
  /-- A register operand byte is no register code (rule R95). Safe. -/
  | illegalRegCode (code : Byte)
  deriving DecidableEq, Repr

/-- What decoding answers: an instruction and the bytes after it, or why there is none. -/
abbrev Decoded := Except DecodeError (Instr × List Byte)

/-! ### Byte order (rules R63, R93) -/

/-- The low byte of a 16-bit value, `v[7:0]`. -/
def lowByte (v : Addr) : Byte := v.extractLsb' 0 8

/-- The high byte of a 16-bit value, `v[15:8]`. -/
def highByte (v : Addr) : Byte := v.extractLsb' 8 8

/-- The 16-bit value `hi:lo` (rule R8). -/
def joinBytes (lo hi : Byte) : Addr := hi ++ lo

/-! ### Formats (rule R92) -/

/-- The format of a form. -/
def Form.format : Form → Format
  | .cmp | .inc | .dec | .ret | .iret | .cli | .sei | .hlt => .op
  | .jmp | .jo | .jno | .js | .jns | .je | .jne | .jb | .jnb | .jbe
  | .ja | .jl | .jge | .jle | .jg | .addA | .subA | .adcA | .lshA | .rshA
  | .orA | .andA | .xorA | .callA | .pushA | .popA => .opA16
  | .addR | .subR | .adcR | .lshR | .rshR | .orR | .andR | .xorR | .pushR | .popR
  | .intR => .opR
  | .pushI | .intI => .opI8
  | .movRR => .opRR
  | .movRI => .opRI8
  | .movRA => .opRA16
  | .movAR => .opA16R

/-- The length in bytes of the instructions of a format, opcode byte included. -/
def Format.length : Format → Nat
  | .op => 1
  | .opR | .opI8 => 2
  | .opA16 | .opRR | .opRI8 => 3
  | .opRA16 | .opA16R => 4

/-- The length in bytes of the instructions of a form (rule R101). -/
def Form.length (f : Form) : Nat := f.format.length

/-! ### The opcode table (rules R96, R98) -/

/-- The 16 opcode bytes the source assigns (rule R96). -/
def sourceOpcodes : List (Form × Byte) :=
  [(.jmp, 0xD0), (.jo, 0xD1), (.jno, 0xD2), (.js, 0xD3), (.jns, 0xD4), (.je, 0xD5),
   (.jne, 0xD6), (.jb, 0xD7), (.jnb, 0xD8), (.jbe, 0xD9), (.ja, 0xDA), (.jl, 0xDB),
   (.jge, 0xDC), (.jle, 0xDD), (.jg, 0xDE), (.hlt, 0xFF)]

/-- The opcode byte that a table gives a form. -/
def lookupOpcode (f : Form) : List (Form × Byte) → Option Byte
  | [] => none
  | e :: t => if e.1 = f then some e.2 else lookupOpcode f t

/-- The form that a table gives an opcode byte. -/
def lookupForm (op : Byte) : List (Form × Byte) → Option Form
  | [] => none
  | e :: t => if e.2 = op then some e.1 else lookupForm op t

/-- The opcode byte of a form: the source's, else `OPCODE_MAP`'s. -/
def opcodeOf (c : Config) (f : Form) : Option Byte := lookupOpcode f (sourceOpcodes ++ c.opcodeMap)

/-- The form an opcode byte selects: by rule R96, else by `OPCODE_MAP` (rule R100). -/
def formOf (c : Config) (op : Byte) : Option Form := lookupForm op (sourceOpcodes ++ c.opcodeMap)

/-! ### Register codes (rule R95) -/

/-- `REG_CODE`. -/
def regCode (c : Config) : Reg → Byte
  | .a => 0x00
  | .b => 0x01
  | .x => c.regX
  | .y => c.regY
  | .sp => c.regSP
  | .sr => c.regSR

/-- `DecodeReg`: the register a code names, if any. -/
def regOf (c : Config) (code : Byte) : Option Reg :=
  if code = 0x00 then some .a
  else if code = 0x01 then some .b
  else if code = c.regX then some .x
  else if code = c.regY then some .y
  else if code = c.regSP then some .sp
  else if code = c.regSR then some .sr
  else none

/-! ### The decoder

All operand bytes are there before any is decoded, and register codes are decoded first operand first (rules R100, R235). -/

/-- One register operand byte: go on with the register that `code` names, or the fault of rule R95. -/
def withReg (c : Config) (code : Byte) (k : Reg → Decoded) : Decoded :=
  match regOf c code with
  | some r => k r
  | none => .error (.illegalRegCode code)

/-- The operand of format `OP_R`. -/
def decodeR (c : Config) (k : Reg → Instr) : List Byte → Decoded
  | r :: rest => withReg c r fun rd => .ok (k rd, rest)
  | _ => .error .truncated

/-- The operand of format `OP_I8` (rule R94). -/
def decodeI8 (k : Byte → Instr) : List Byte → Decoded
  | v :: rest => .ok (k v, rest)
  | _ => .error .truncated

/-- The operand of format `OP_A16`, low byte first (rule R93). -/
def decodeA16 (k : Addr → Instr) : List Byte → Decoded
  | lo :: hi :: rest => .ok (k (joinBytes lo hi), rest)
  | _ => .error .truncated

/-- The operands of format `OP_R_R`. -/
def decodeRR (c : Config) (k : Reg → Reg → Instr) : List Byte → Decoded
  | d :: s :: rest => withReg c d fun rd => withReg c s fun rs => .ok (k rd rs, rest)
  | _ => .error .truncated

/-- The operands of format `OP_R_I8`. -/
def decodeRI8 (c : Config) (k : Reg → Byte → Instr) : List Byte → Decoded
  | d :: v :: rest => withReg c d fun rd => .ok (k rd v, rest)
  | _ => .error .truncated

/-- The operands of format `OP_R_A16`. -/
def decodeRA16 (c : Config) (k : Reg → Addr → Instr) : List Byte → Decoded
  | d :: lo :: hi :: rest => withReg c d fun rd => .ok (k rd (joinBytes lo hi), rest)
  | _ => .error .truncated

/-- The operands of format `OP_A16_R`. -/
def decodeA16R (c : Config) (k : Addr → Reg → Instr) : List Byte → Decoded
  | lo :: hi :: s :: rest => withReg c s fun rs => .ok (k (joinBytes lo hi) rs, rest)
  | _ => .error .truncated

/-- The instruction of form `f` whose operand bytes open `bs`. -/
def decodeOperands (c : Config) (f : Form) (bs : List Byte) : Decoded :=
  match f with
  | .movRR => decodeRR c .movRR bs
  | .movRI => decodeRI8 c .movRI bs
  | .movRA => decodeRA16 c .movRA bs
  | .movAR => decodeA16R c .movAR bs
  | .jmp => decodeA16 .jmp bs
  | .jo => decodeA16 .jo bs
  | .jno => decodeA16 .jno bs
  | .js => decodeA16 .js bs
  | .jns => decodeA16 .jns bs
  | .je => decodeA16 .je bs
  | .jne => decodeA16 .jne bs
  | .jb => decodeA16 .jb bs
  | .jnb => decodeA16 .jnb bs
  | .jbe => decodeA16 .jbe bs
  | .ja => decodeA16 .ja bs
  | .jl => decodeA16 .jl bs
  | .jge => decodeA16 .jge bs
  | .jle => decodeA16 .jle bs
  | .jg => decodeA16 .jg bs
  | .addR => decodeR c .addR bs
  | .addA => decodeA16 .addA bs
  | .subR => decodeR c .subR bs
  | .subA => decodeA16 .subA bs
  | .adcR => decodeR c .adcR bs
  | .adcA => decodeA16 .adcA bs
  | .lshR => decodeR c .lshR bs
  | .lshA => decodeA16 .lshA bs
  | .rshR => decodeR c .rshR bs
  | .rshA => decodeA16 .rshA bs
  | .orR => decodeR c .orR bs
  | .orA => decodeA16 .orA bs
  | .andR => decodeR c .andR bs
  | .andA => decodeA16 .andA bs
  | .xorR => decodeR c .xorR bs
  | .xorA => decodeA16 .xorA bs
  | .cmp => .ok (.cmp, bs)
  | .inc => .ok (.inc, bs)
  | .dec => .ok (.dec, bs)
  | .callA => decodeA16 .callA bs
  | .ret => .ok (.ret, bs)
  | .pushI => decodeI8 .pushI bs
  | .pushR => decodeR c .pushR bs
  | .pushA => decodeA16 .pushA bs
  | .popR => decodeR c .popR bs
  | .popA => decodeA16 .popA bs
  | .intR => decodeR c .intR bs
  | .intI => decodeI8 .intI bs
  | .iret => .ok (.iret, bs)
  | .cli => .ok (.cli, bs)
  | .sei => .ok (.sei, bs)
  | .hlt => .ok (.hlt, bs)

/-- The instruction that opens a list of bytes, and the bytes after it (rules R90 to R101). -/
def decode (c : Config) : List Byte → Decoded
  | [] => .error .truncated
  | op :: bs =>
    match formOf c op with
    | some f => decodeOperands c f bs
    | none => .error (.illegalOpcode op)

/-! ### The encoder -/

/-- The operand bytes of an instruction, in the order of its format (rules R91 to R95). -/
def operandBytes (c : Config) (i : Instr) : List Byte :=
  match i with
  | .movRR rd rs => [regCode c rd, regCode c rs]
  | .movRI rd imm => [regCode c rd, imm]
  | .movRA rd adr => [regCode c rd, lowByte adr, highByte adr]
  | .movAR adr rs => [lowByte adr, highByte adr, regCode c rs]
  | .jmp adr => [lowByte adr, highByte adr]
  | .jo adr => [lowByte adr, highByte adr]
  | .jno adr => [lowByte adr, highByte adr]
  | .js adr => [lowByte adr, highByte adr]
  | .jns adr => [lowByte adr, highByte adr]
  | .je adr => [lowByte adr, highByte adr]
  | .jne adr => [lowByte adr, highByte adr]
  | .jb adr => [lowByte adr, highByte adr]
  | .jnb adr => [lowByte adr, highByte adr]
  | .jbe adr => [lowByte adr, highByte adr]
  | .ja adr => [lowByte adr, highByte adr]
  | .jl adr => [lowByte adr, highByte adr]
  | .jge adr => [lowByte adr, highByte adr]
  | .jle adr => [lowByte adr, highByte adr]
  | .jg adr => [lowByte adr, highByte adr]
  | .addR rd => [regCode c rd]
  | .addA adr => [lowByte adr, highByte adr]
  | .subR rd => [regCode c rd]
  | .subA adr => [lowByte adr, highByte adr]
  | .adcR rd => [regCode c rd]
  | .adcA adr => [lowByte adr, highByte adr]
  | .lshR rd => [regCode c rd]
  | .lshA adr => [lowByte adr, highByte adr]
  | .rshR rd => [regCode c rd]
  | .rshA adr => [lowByte adr, highByte adr]
  | .orR rd => [regCode c rd]
  | .orA adr => [lowByte adr, highByte adr]
  | .andR rd => [regCode c rd]
  | .andA adr => [lowByte adr, highByte adr]
  | .xorR rd => [regCode c rd]
  | .xorA adr => [lowByte adr, highByte adr]
  | .cmp => []
  | .inc => []
  | .dec => []
  | .callA adr => [lowByte adr, highByte adr]
  | .ret => []
  | .pushI imm => [imm]
  | .pushR rs => [regCode c rs]
  | .pushA adr => [lowByte adr, highByte adr]
  | .popR rd => [regCode c rd]
  | .popA adr => [lowByte adr, highByte adr]
  | .intR rs => [regCode c rs]
  | .intI imm => [imm]
  | .iret => []
  | .cli => []
  | .sei => []
  | .hlt => []

/-- The bytes of an instruction; none where its form has no opcode byte under `c`. -/
def encode (c : Config) (i : Instr) : Option (List Byte) :=
  (opcodeOf c i.form).map fun op => op :: operandBytes c i

/-! ### The host's words -/

/-- Byte `k` of the number `w`, byte 0 the least significant. -/
def byteOfWord (w k : Nat) : Byte := BitVec.ofNat 8 (w / 256 ^ k)

/-- The four bytes of an instruction whose `nbits` lowest bits are those of `w`, the rest zero; the first byte is the lowest. -/
def wordBytes (nbits w : Nat) : List Byte :=
  [byteOfWord (w % 2 ^ nbits) 0, byteOfWord (w % 2 ^ nbits) 1, byteOfWord (w % 2 ^ nbits) 2, byteOfWord (w % 2 ^ nbits) 3]

/-- The instruction the decoder reads, under the parameters of `State.reset`, from the bytes of `w`. -/
def decodeTableWord (nbits w : Nat) : Option Instr :=
  match decode Config.default (wordBytes nbits w) with
  | .ok (i, _) => some i
  | .error _ => none

end Sys2Proof
end

