-- ==== Sys2Proof/Machine/State.lean ====
section
/-! DEFINITION. The state of the Rua-1 (`10_state.md` rule R20) as plain data, the reasons a step can stop
(`60_exceptions.md` rule R231), and the state at the launch of a run (rules R44, R261). -/

namespace Sys2Proof.Machine

/-- The model faults of rule R231 that a step answers as a fault. They are verdicts of the model, not events of the hardware
(rule R230); the run has no meaning from there on. -/
inductive Fault where
  /-- Raised by the fetch of an opcode byte that spells no instruction (rule R99); `pc` is where PC is left, one past the
  opcode byte. Safe: nothing can be claimed of the run. -/
  | illegalOpcode (op : Byte) (pc : Addr)
  /-- Raised by a register operand byte that is no register code (rule R95). Safe. -/
  | illegalRegCode (code : Byte)
  /-- Raised by the decoder on bytes that end inside an instruction; a step fetches all bytes of a form and never raises it.
  Safe. -/
  | truncated
  /-- Raised by any access to an address that `MEM_MAP` marks absent (rule R69). Safe. -/
  | absentMemory (adr : Addr)
  /-- Raised by a write to an address that `MEM_MAP` marks rom (rule R69). Safe. -/
  | writeToRom (adr : Addr)
  deriving DecidableEq, Repr

/-- What the model gives no meaning at all (treatment `refuse` of `93_implementation_defined.md`). -/
inductive Refusal where
  /-- Raised by `exec` for an instruction without a meaning; no arm does so. Safe. -/
  | notModelled (mnemonic : String)
  /-- Raised by ADD, SUB, ADC, LSH, RSH, OR, AND, XOR with SR as destination (rule R165, U7). Safe. -/
  | aluDestSR
  /-- Raised by INT on a platform without `INT_TARGET` (rule R215, U10). Safe. -/
  | intTargetOpen
  /-- Raised by an access to an address that `MEM_MAP` gives to a device (rule R69, U17). Safe. -/
  | deviceAccess (adr : Addr)
  deriving DecidableEq, Repr

/-- The five bits of SR that are storage (rules R25 to R33); bits 6, 5, 4 are not (rule R32). -/
structure Status where
  /-- SR[7], interrupt enable (rule R30). -/
  ie : Bool
  /-- SR[3], overflow (rule R29). -/
  of : Bool
  /-- SR[2], sign (rule R28). -/
  sf : Bool
  /-- SR[1], zero (rule R27). -/
  zf : Bool
  /-- SR[0], carry (rule R26). -/
  cf : Bool
  deriving DecidableEq, Repr

/-- The bytes memory holds: (address, byte) pairs, addresses strictly rising (`20_memory.md` rule R60). An address that is not
listed holds nothing the spec fixes; a read of it is a free value (rules R17, R44; log 9). -/
abbrev Memory := List Host.Cell

/-- The whole state of a Rua-1 (rule R20), the platform's parameters, and the counter of free values. -/
structure State where
  /-- A, the accumulator (rule R21). -/
  a : Byte
  /-- B (rule R22). -/
  b : Byte
  /-- X (rule R23). -/
  x : Byte
  /-- Y (rule R23). -/
  y : Byte
  /-- SP, the stack pointer (rule R24). -/
  sp : Byte
  /-- SR, the status register (rule R25). -/
  sr : Status
  /-- PC, the program counter (rule R34). -/
  pc : Addr
  /-- MAR, the memory address register: the address of the latest access (rule R38; DEDUCED, log 14). -/
  mar : Addr
  /-- The halt latch (rule R39). -/
  halted : Bool
  /-- Memory (rule R60). -/
  mem : Memory
  /-- The platform's parameters (rule R7); no step changes them (log 1). -/
  cfg : Config
  /-- The model's own counter: where the next free value is drawn (rule R17; log 12). -/
  draws : Nat
  deriving DecidableEq, Repr

/-- The launch of a run (rules R44, R246, R261): PC at `RESET_PC`, not halted, memory the launch image. DESIGN CHOICE (log 8):
the registers, which the spec leaves unspecified, are zero; so is the counter of free values (log 12). -/
def State.launch (cfg : Config) (image : Memory) : State :=
  { a := 0, b := 0, x := 0, y := 0, sp := 0
    sr := { ie := false, of := false, sf := false, zf := false, cf := false }
    pc := cfg.resetPc
    mar := 0
    halted := false
    mem := image
    cfg := cfg
    draws := 0 }

/-- The machine right after reset: a launch under the default parameters with nothing in memory (log 6, 15). -/
def State.reset : State := State.launch Config.default []

end Sys2Proof.Machine
end

