-- ==== Sys2Proof/Machine/Ops.lean ====
section
/-! DEFINITION. The named operations over memory, registers and the stack, and the entry into an interrupt handler and the
return from it. Each takes the state as it stands and answers a value with the state after it, or stops by name. -/

namespace Sys2Proof.Machine

/-- What an operation answers: a result, or one of the two ways to stop. -/
abbrev Res (α : Type) := Host.Outcome α Fault Refusal

/-- Go on with an operation's result, or stop as it did. -/
def andThen {α β : Type} (o : Res α) (k : α → Res β) : Res β :=
  match o with
  | .next v => k v
  | .fault e => .fault e
  | .refused e => .refused e

/-! ### Memory (`20_memory.md`) -/

/-- The byte listed at an address, if any. -/
def Memory.read (m : Memory) (adr : Addr) : Option Byte :=
  match m with
  | [] => none
  | c :: rest => if c.1 = adr.toNat then some c.2 else Memory.read rest adr

/-- The memory with byte `v` at `adr` and every other byte as it was (rule R64). -/
def Memory.write (m : Memory) (adr : Addr) (v : Byte) : Memory :=
  match m with
  | [] => [(adr.toNat, v)]
  | c :: rest =>
    if c.1 < adr.toNat then c :: Memory.write rest adr v
    else if c.1 = adr.toNat then (adr.toNat, v) :: rest
    else (adr.toNat, v) :: c :: rest

/-- Every address of the list is at least `lo`, rising strictly, and one of the 65536 (rule R60). -/
def Memory.risesFrom (lo : Nat) (m : Memory) : Bool :=
  match m with
  | [] => true
  | c :: rest => decide (lo ≤ c.1) && decide (c.1 < 65536) && Memory.risesFrom (c.1 + 1) rest

/-- The canonical form: equal memories are equal lists. An unlisted address has no value, so no entry equals one. -/
def Memory.wf (m : Memory) : Bool := Memory.risesFrom 0 m

/-- What `MEM_MAP` makes of an address: the first region that holds it, else ram, the default of rule R69. -/
def kindAt (regions : List MemRegion) (adr : Addr) : MemKind :=
  match regions with
  | [] => .ram
  | r :: rest =>
    if r.base.toNat ≤ adr.toNat ∧ adr.toNat < r.base.toNat + r.size then r.kind else kindAt rest adr

/-- The byte a read delivers: the one listed, else a free value drawn afresh (rules R17, R44; log 9). -/
def loadByte (adr : Addr) (s : State) : Byte × State :=
  match s.mem.read adr with
  | some v => (v, { s with mar := adr })
  | none => (Config.anyByte s.draws, { s with mar := adr, draws := s.draws + 1 })

/-- `MemRead(adr, 1)` (rules R12, R64, R69). -/
def memRead (adr : Addr) (s : State) : Res (Byte × State) :=
  match kindAt s.cfg.memMap adr with
  | .ram | .rom => .next (loadByte adr s)
  | .absent => .fault (.absentMemory adr)
  | .device => .refused (.deviceAccess adr)

/-- `MemWrite(adr, 1, v)` (rules R12, R64, R69). -/
def memWrite (adr : Addr) (v : Byte) (s : State) : Res State :=
  match kindAt s.cfg.memMap adr with
  | .ram => .next { s with mem := s.mem.write adr v, mar := adr }
  | .rom => .fault (.writeToRom adr)
  | .absent => .fault (.absentMemory adr)
  | .device => .refused (.deviceAccess adr)

/-- `MemRead(adr, 2)`: two byte reads, the lower address first, addresses wrapping (rules R12, R66). -/
def memRead16 (adr : Addr) (s : State) : Res (Addr × State) :=
  andThen (memRead adr s) fun lo =>
  andThen (memRead (adr + 1) lo.2) fun hi =>
  .next (joinBytes lo.1 hi.1, hi.2)

/-! ### Registers (`00_scope.md` rule R11, `10_state.md` rule R33) -/

/-- SR as a byte, `IE:any:any:any:OF:SF:ZF:CF`, with `free` in bits 6 to 4 (rules R25, R33). -/
def Status.toByte (st : Status) (free : BitVec 3) : Byte :=
  BitVec.ofBool st.ie ++ free ++ BitVec.ofBool st.of ++ BitVec.ofBool st.sf ++ BitVec.ofBool st.zf ++ BitVec.ofBool st.cf

/-- SR after the byte `v` is written to it; bits 6 to 4 of `v` are discarded (rules R32, R33). -/
def Status.ofByte (v : Byte) : Status :=
  { ie := v.getLsbD 7, of := v.getLsbD 3, sf := v.getLsbD 2, zf := v.getLsbD 1, cf := v.getLsbD 0 }

/-- `x[r]`. A read of SR draws bits 6 to 4 afresh (rule R32). -/
def readReg (r : Reg) (s : State) : Byte × State :=
  match r with
  | .a => (s.a, s)
  | .b => (s.b, s)
  | .x => (s.x, s)
  | .y => (s.y, s)
  | .sp => (s.sp, s)
  | .sr => (s.sr.toByte (Config.anyStatusBits s.draws), { s with draws := s.draws + 1 })

/-- `x[r] <- v`. -/
def writeReg (r : Reg) (v : Byte) (s : State) : State :=
  match r with
  | .a => { s with a := v }
  | .b => { s with b := v }
  | .x => { s with x := v }
  | .y => { s with y := v }
  | .sp => { s with sp := v }
  | .sr => { s with sr := Status.ofByte v }

/-! ### The stack (`43_stack.md` rules R190 to R193) -/

/-- `StackAddr(sp)`: the page's byte over SP (rule R190). -/
def stackAddr (page sp : Byte) : Addr := joinBytes sp page

/-- `Push8(v)`: full descending, SP modulo 256 (rule R191). -/
def push8 (v : Byte) (s : State) : Res State :=
  memWrite (stackAddr s.cfg.stackPage (s.sp - 1)) v { s with sp := s.sp - 1 }

/-- `Pop8()` (rule R191). -/
def pop8 (s : State) : Res (Byte × State) :=
  andThen (memRead (stackAddr s.cfg.stackPage s.sp) s) fun v =>
  .next (v.1, { v.2 with sp := v.2.sp + 1 })

/-- `Push16(v)`: the high byte first (rule R192). -/
def push16 (v : Addr) (s : State) : Res State :=
  andThen (push8 (highByte v) s) fun s1 => push8 (lowByte v) s1

/-- `Pop16()`: the low byte first (rule R193). -/
def pop16 (s : State) : Res (Addr × State) :=
  andThen (pop8 s) fun lo =>
  andThen (pop8 lo.2) fun hi =>
  .next (joinBytes lo.1 hi.1, hi.2)

/-! ### Control transfers -/

/-- `pc <- adr` (rule R11). -/
def setPc (adr : Addr) (s : State) : State := { s with pc := adr }

/-- `Push16(PC); pc <- adr`, PC being the next instruction's address (rule R194). -/
def callTo (adr : Addr) (s : State) : Res State :=
  andThen (push16 s.pc s) fun s1 => .next (setPc adr s1)

/-- `pc <- Pop16()` (rules R195, R212). -/
def returnFromStack (s : State) : Res State :=
  andThen (pop16 s) fun t => .next (setPc t.1 t.2)

/-- `INT_TARGET(n, Mem)` of a platform that has one (rule R215), read in the state after the two pushes (log 20). -/
def intTarget (n : Byte) (s : State) : Res (Addr × State) :=
  match s.cfg.intTarget with
  | .absent => .refused .intTargetOpen
  | .uninterpreted => .next (Config.intTargetFn n s.mem, s)
  | .table base => memRead16 (base + 2 * n.setWidth 16) s
  | .entries base stride => .next (base + n.setWidth 16 * stride, s)

/-- `IntCall(n)`, the entry into the handler of vector `n` (rules R215, R236): the return address is pushed and PC goes to
`INT_TARGET(n, Mem)`; SR is neither saved nor changed. A platform without `INT_TARGET` is refused before any push (rule R235). -/
def intCall (n : Byte) (s : State) : Res State :=
  if s.cfg.intTarget = .absent then .refused .intTargetOpen
  else andThen (push16 s.pc s) fun s1 => andThen (intTarget n s1) fun t => .next (setPc t.1 t.2)

/-- The return from a handler (rule R237): PC is popped and nothing else is restored. -/
def intReturn (s : State) : Res State := returnFromStack s

end Sys2Proof.Machine
end

