-- ==== Sys2Proof/Machine/Flags.lean ====
section
/-! DEFINITION. The 8-bit results and the flags of the ALU (`42_alu.md` rules R160 to R163, R177), and the conditions of the
jumps (`41_jump.md`). -/

namespace Sys2Proof.Machine

/-! ### Results (rule R177) -/

/-- `(a + b + cin) mod 256`. -/
def addResult (a b : Byte) (cin : Bool) : Byte := BitVec.ofNat 8 (a.toNat + b.toNat + cin.toNat)

/-- `(a - b) mod 256`. -/
def subResult (a b : Byte) : Byte := a - b

/-- `(a * 2^b) mod 256`, the whole of `b` being the count (rule R169). -/
def lshResult (a b : Byte) : Byte := BitVec.ofNat 8 (a.toNat * 2 ^ b.toNat)

/-- `floor(a / 2^b)`, `a` unsigned, the whole of `b` being the count (rule R170). -/
def rshResult (a b : Byte) : Byte := BitVec.ofNat 8 (a.toNat / 2 ^ b.toNat)

/-! ### Flags: each function gives SR after the operation, IE as it was (rule R31) -/

/-- `FlagsAdd(a, b, cin)` (rule R160). -/
def flagsAdd (a b : Byte) (cin : Bool) (st : Status) : Status :=
  let res := addResult a b cin
  { st with
    cf := decide (256 ≤ a.toNat + b.toNat + cin.toNat)
    zf := decide (res = 0)
    sf := res.msb
    of := a.msb == b.msb && res.msb != a.msb }

/-- `FlagsSub(a, b)`; CF is the borrow (rule R161). -/
def flagsSub (a b : Byte) (st : Status) : Status :=
  let res := subResult a b
  { st with
    cf := decide (a.toNat < b.toNat)
    zf := decide (res = 0)
    sf := res.msb
    of := a.msb != b.msb && res.msb != a.msb }

/-- `FlagsLogic(res)` (rule R162). -/
def flagsLogic (res : Byte) (st : Status) : Status :=
  { st with cf := false, zf := decide (res = 0), sf := res.msb, of := false }

/-- `FlagsShift(res)`: CF and OF are the free values of draw `d` (rule R163). -/
def flagsShift (res : Byte) (d : Nat) (st : Status) : Status :=
  { st with cf := Config.anyShiftCarry d, zf := decide (res = 0), sf := res.msb, of := Config.anyShiftOverflow d }

/-! ### The conditions of the jumps, on the flags as they stand (rules R140 to R155) -/

/-- JO (rule R142). -/
def condO (st : Status) : Bool := st.of
/-- JNO (rule R143). -/
def condNO (st : Status) : Bool := !st.of
/-- JS (rule R144). -/
def condS (st : Status) : Bool := st.sf
/-- JNS (rule R145). -/
def condNS (st : Status) : Bool := !st.sf
/-- JE, JZ (rule R146). -/
def condE (st : Status) : Bool := st.zf
/-- JNE, JNZ (rule R147). -/
def condNE (st : Status) : Bool := !st.zf
/-- JB, JC (rule R148). -/
def condB (st : Status) : Bool := st.cf
/-- JNB, JNC (rule R149). -/
def condNB (st : Status) : Bool := !st.cf
/-- JBE (rule R150). -/
def condBE (st : Status) : Bool := st.cf || st.zf
/-- JA (rule R151). -/
def condA (st : Status) : Bool := !st.cf && !st.zf
/-- JL (rule R152). -/
def condL (st : Status) : Bool := st.sf != st.of
/-- JGE (rule R153). -/
def condGE (st : Status) : Bool := st.sf == st.of
/-- JLE (rule R154). -/
def condLE (st : Status) : Bool := st.zf || st.sf != st.of
/-- JG (rule R155). -/
def condG (st : Status) : Bool := !st.zf && st.sf == st.of

end Sys2Proof.Machine
end

