-- ==== Sys2Proof/Machine/Operands.lean ====
section
/-! DEFINITION. The operand forms: where a data instruction takes its byte from and where it puts it
(`30_encoding.md` rule R91, `42_alu.md` rule R164, decision D8). -/

namespace Sys2Proof.Machine

/-- A source operand: a register, a constant, or the byte at an absolute address (rule R78). -/
inductive Source where
  | reg (r : Reg)
  | imm (v : Byte)
  | mem (adr : Addr)
  deriving DecidableEq, Repr

/-- A destination operand: a register, or the byte at an absolute address. -/
inductive Dest where
  | reg (r : Reg)
  | mem (adr : Addr)
  deriving DecidableEq, Repr

/-- The byte a source operand stands for. -/
def readSource (src : Source) (s : State) : Res (Byte × State) :=
  match src with
  | .reg r => .next (readReg r s)
  | .imm v => .next (v, s)
  | .mem adr => memRead adr s

/-- `WriteDest(dest, v)` (rule R164). -/
def writeDest (dest : Dest) (v : Byte) (s : State) : Res State :=
  match dest with
  | .reg r => .next (writeReg r v s)
  | .mem adr => memWrite adr v s

/-- A move: the source is read, then the destination written (rules R76, R130 to R133). -/
def move (dest : Dest) (src : Source) (s : State) : Res State :=
  andThen (readSource src s) fun v => writeDest dest v.1 v.2

/-- The end of an ALU operation with a destination: the flags and the result are written; SR as destination has no meaning
(rules R164, R165). -/
def aluWrite (dest : Dest) (res : Byte) (flags : Status) (s : State) : Res State :=
  if dest = .reg .sr then .refused .aluDestSR else writeDest dest res { s with sr := flags }

/-- The end of a shift, whose CF and OF are drawn (rules R163, R164). -/
def shiftWrite (dest : Dest) (res : Byte) (s : State) : Res State :=
  aluWrite dest res (flagsShift res s.draws s.sr) { s with draws := s.draws + 1 }

/-- A push: the source is read before SP moves (rules R196 to R198). -/
def pushSource (src : Source) (s : State) : Res State :=
  andThen (readSource src s) fun v => push8 v.1 v.2

/-- A pop: SP has moved when the destination is written (rules R199, R200). -/
def popDest (dest : Dest) (s : State) : Res State :=
  andThen (pop8 s) fun v => writeDest dest v.1 v.2

/-- `if cond then pc <- adr` (rule R140). -/
def jumpIf (cond : Bool) (adr : Addr) (s : State) : Res State :=
  .next (if cond then setPc adr s else s)

end Sys2Proof.Machine
end

