-- ==== Sys2Proof/Machine/Alu.lean ====
section
/-! DEFINITION. The ALU operations (`42_alu.md`). The inputs are A and B (or A alone), read before anything is written; the
operand only names where the result goes (rule R164). -/

namespace Sys2Proof.Machine

/-- `ADD reg` (rule R166). -/
def execAddR (rd : Reg) (s : State) : Res State :=
  aluWrite (.reg rd) (addResult s.a s.b false) (flagsAdd s.a s.b false s.sr) s

/-- `ADD adr` (rule R166). -/
def execAddA (adr : Addr) (s : State) : Res State :=
  aluWrite (.mem adr) (addResult s.a s.b false) (flagsAdd s.a s.b false s.sr) s

/-- `SUB reg` (rule R167). -/
def execSubR (rd : Reg) (s : State) : Res State :=
  aluWrite (.reg rd) (subResult s.a s.b) (flagsSub s.a s.b s.sr) s

/-- `SUB adr` (rule R167). -/
def execSubA (adr : Addr) (s : State) : Res State :=
  aluWrite (.mem adr) (subResult s.a s.b) (flagsSub s.a s.b s.sr) s

/-- `ADC reg` (rule R168). -/
def execAdcR (rd : Reg) (s : State) : Res State :=
  aluWrite (.reg rd) (addResult s.a s.b s.sr.cf) (flagsAdd s.a s.b s.sr.cf s.sr) s

/-- `ADC adr` (rule R168). -/
def execAdcA (adr : Addr) (s : State) : Res State :=
  aluWrite (.mem adr) (addResult s.a s.b s.sr.cf) (flagsAdd s.a s.b s.sr.cf s.sr) s

/-- `LSH reg` (rule R169). -/
def execLshR (rd : Reg) (s : State) : Res State :=
  shiftWrite (.reg rd) (lshResult s.a s.b) s

/-- `LSH adr` (rule R169). -/
def execLshA (adr : Addr) (s : State) : Res State :=
  shiftWrite (.mem adr) (lshResult s.a s.b) s

/-- `RSH reg` (rule R170). -/
def execRshR (rd : Reg) (s : State) : Res State :=
  shiftWrite (.reg rd) (rshResult s.a s.b) s

/-- `RSH adr` (rule R170). -/
def execRshA (adr : Addr) (s : State) : Res State :=
  shiftWrite (.mem adr) (rshResult s.a s.b) s

/-- `OR reg` (rule R171). -/
def execOrR (rd : Reg) (s : State) : Res State :=
  aluWrite (.reg rd) (s.a ||| s.b) (flagsLogic (s.a ||| s.b) s.sr) s

/-- `OR adr` (rule R171). -/
def execOrA (adr : Addr) (s : State) : Res State :=
  aluWrite (.mem adr) (s.a ||| s.b) (flagsLogic (s.a ||| s.b) s.sr) s

/-- `AND reg` (rule R172). -/
def execAndR (rd : Reg) (s : State) : Res State :=
  aluWrite (.reg rd) (s.a &&& s.b) (flagsLogic (s.a &&& s.b) s.sr) s

/-- `AND adr` (rule R172). -/
def execAndA (adr : Addr) (s : State) : Res State :=
  aluWrite (.mem adr) (s.a &&& s.b) (flagsLogic (s.a &&& s.b) s.sr) s

/-- `XOR reg` (rule R173). -/
def execXorR (rd : Reg) (s : State) : Res State :=
  aluWrite (.reg rd) (s.a ^^^ s.b) (flagsLogic (s.a ^^^ s.b) s.sr) s

/-- `XOR adr` (rule R173). -/
def execXorA (adr : Addr) (s : State) : Res State :=
  aluWrite (.mem adr) (s.a ^^^ s.b) (flagsLogic (s.a ^^^ s.b) s.sr) s

/-- `CMP`: the flags of A - B, nothing else (rule R174). -/
def execCmp (s : State) : Res State := .next { s with sr := flagsSub s.a s.b s.sr }

/-- `INC`: A + 1 to A, with the flags of an addition (rule R175). -/
def execInc (s : State) : Res State := .next { s with a := addResult s.a 1 false, sr := flagsAdd s.a 1 false s.sr }

/-- `DEC`: A - 1 to A, with the flags of a subtraction (rule R176). -/
def execDec (s : State) : Res State := .next { s with a := subResult s.a 1, sr := flagsSub s.a 1 s.sr }

end Sys2Proof.Machine
end

