-- ==== Sys2Proof/Machine/Halt.lean ====
section
/-! DEFINITION. Halt (`45_halt.md`). -/

namespace Sys2Proof.Machine

/-- `HLT`: the halt latch is set; PC is already past the instruction (rule R220). -/
def execHlt (s : State) : Res State := .next { s with halted := true }

end Sys2Proof.Machine
end

