-- ==== Sys2Proof/Machine/Interrupt.lean ====
section
/-! DEFINITION. The interrupt instructions (`44_interrupt.md`). INT is a call through the vector number, gated by nothing;
IRET is the return; IE is a stored bit (rules R30, R233). -/

namespace Sys2Proof.Machine

/-- `INT reg`: the register is read before SP moves (rule R210). -/
def execIntR (rs : Reg) (s : State) : Res State :=
  andThen (readSource (.reg rs) s) fun n => intCall n.1 n.2

/-- `INT imm8` (rule R211). -/
def execIntI (imm : Byte) (s : State) : Res State := intCall imm s

/-- `IRET` (rule R212). -/
def execIret (s : State) : Res State := intReturn s

/-- `CLI`: IE becomes 0 (rule R213). -/
def execCli (s : State) : Res State := .next { s with sr := { s.sr with ie := false } }

/-- `SEI`: IE becomes 1 (rule R214). -/
def execSei (s : State) : Res State := .next { s with sr := { s.sr with ie := true } }

end Sys2Proof.Machine
end

