-- ==== Sys2Proof/Machine/Jump.lean ====
section
/-! DEFINITION. The jump operations (`41_jump.md`): PC becomes the operand when the condition on the flags holds, and nothing
else changes (rule R140). -/

namespace Sys2Proof.Machine

/-- `JMP adr`: always (rule R141). -/
def execJmp (adr : Addr) (s : State) : Res State := jumpIf true adr s

/-- `JO adr` (rule R142). -/
def execJo (adr : Addr) (s : State) : Res State := jumpIf (condO s.sr) adr s

/-- `JNO adr` (rule R143). -/
def execJno (adr : Addr) (s : State) : Res State := jumpIf (condNO s.sr) adr s

/-- `JS adr` (rule R144). -/
def execJs (adr : Addr) (s : State) : Res State := jumpIf (condS s.sr) adr s

/-- `JNS adr` (rule R145). -/
def execJns (adr : Addr) (s : State) : Res State := jumpIf (condNS s.sr) adr s

/-- `JE adr` (rule R146). -/
def execJe (adr : Addr) (s : State) : Res State := jumpIf (condE s.sr) adr s

/-- `JNE adr` (rule R147). -/
def execJne (adr : Addr) (s : State) : Res State := jumpIf (condNE s.sr) adr s

/-- `JB adr` (rule R148). -/
def execJb (adr : Addr) (s : State) : Res State := jumpIf (condB s.sr) adr s

/-- `JNB adr` (rule R149). -/
def execJnb (adr : Addr) (s : State) : Res State := jumpIf (condNB s.sr) adr s

/-- `JBE adr` (rule R150). -/
def execJbe (adr : Addr) (s : State) : Res State := jumpIf (condBE s.sr) adr s

/-- `JA adr` (rule R151). -/
def execJa (adr : Addr) (s : State) : Res State := jumpIf (condA s.sr) adr s

/-- `JL adr` (rule R152). -/
def execJl (adr : Addr) (s : State) : Res State := jumpIf (condL s.sr) adr s

/-- `JGE adr` (rule R153). -/
def execJge (adr : Addr) (s : State) : Res State := jumpIf (condGE s.sr) adr s

/-- `JLE adr` (rule R154). -/
def execJle (adr : Addr) (s : State) : Res State := jumpIf (condLE s.sr) adr s

/-- `JG adr` (rule R155). -/
def execJg (adr : Addr) (s : State) : Res State := jumpIf (condG s.sr) adr s

end Sys2Proof.Machine
end

