-- ==== Sys2Proof/Machine/Move.lean ====
section
/-! DEFINITION. The move operations (`40_move.md`). No flag changes but through SR as a named destination. -/

namespace Sys2Proof.Machine

/-- `MOV reg, reg` (rule R130). -/
def execMovRR (rd rs : Reg) (s : State) : Res State := move (.reg rd) (.reg rs) s

/-- `MOV reg, imm8` (rule R131). -/
def execMovRI (rd : Reg) (imm : Byte) (s : State) : Res State := move (.reg rd) (.imm imm) s

/-- `MOV reg, adr` (rule R132). -/
def execMovRA (rd : Reg) (adr : Addr) (s : State) : Res State := move (.reg rd) (.mem adr) s

/-- `MOV adr, reg` (rule R133). -/
def execMovAR (adr : Addr) (rs : Reg) (s : State) : Res State := move (.mem adr) (.reg rs) s

end Sys2Proof.Machine
end

