-- ==== Sys2Proof/Machine/Stack.lean ====
section
/-! DEFINITION. Procedures and the stack (`43_stack.md`), over the four stack primitives. -/

namespace Sys2Proof.Machine

/-- `CALL adr` (rule R194). -/
def execCallA (adr : Addr) (s : State) : Res State := callTo adr s

/-- `RET` (rule R195). -/
def execRet (s : State) : Res State := returnFromStack s

/-- `PUSH imm8` (rule R196). -/
def execPushI (imm : Byte) (s : State) : Res State := pushSource (.imm imm) s

/-- `PUSH reg` (rule R197). -/
def execPushR (rs : Reg) (s : State) : Res State := pushSource (.reg rs) s

/-- `PUSH adr`: the byte at `adr`, not the address (rule R198). -/
def execPushA (adr : Addr) (s : State) : Res State := pushSource (.mem adr) s

/-- `POP reg` (rule R199). -/
def execPopR (rd : Reg) (s : State) : Res State := popDest (.reg rd) s

/-- `POP adr` (rule R200). -/
def execPopA (adr : Addr) (s : State) : Res State := popDest (.mem adr) s

end Sys2Proof.Machine
end

