-- ==== Sys2Proof/Machine/Dispatch.lean ====
section
/-! DEFINITION. The dispatch from an instruction to its meaning, one arm per constructor of `Instr`. -/

namespace Sys2Proof.Machine

def exec (i : Instr) (s : State) : Host.Outcome State Fault Refusal :=
  match i with
  | .movRR rd rs => Sys2Proof.Machine.execMovRR rd rs s
  | .movRI rd imm => Sys2Proof.Machine.execMovRI rd imm s
  | .movRA rd adr => Sys2Proof.Machine.execMovRA rd adr s
  | .movAR adr rs => Sys2Proof.Machine.execMovAR adr rs s
  | .jmp adr => Sys2Proof.Machine.execJmp adr s
  | .jo adr => Sys2Proof.Machine.execJo adr s
  | .jno adr => Sys2Proof.Machine.execJno adr s
  | .js adr => Sys2Proof.Machine.execJs adr s
  | .jns adr => Sys2Proof.Machine.execJns adr s
  | .je adr => Sys2Proof.Machine.execJe adr s
  | .jne adr => Sys2Proof.Machine.execJne adr s
  | .jb adr => Sys2Proof.Machine.execJb adr s
  | .jnb adr => Sys2Proof.Machine.execJnb adr s
  | .jbe adr => Sys2Proof.Machine.execJbe adr s
  | .ja adr => Sys2Proof.Machine.execJa adr s
  | .jl adr => Sys2Proof.Machine.execJl adr s
  | .jge adr => Sys2Proof.Machine.execJge adr s
  | .jle adr => Sys2Proof.Machine.execJle adr s
  | .jg adr => Sys2Proof.Machine.execJg adr s
  | .addR rd => Sys2Proof.Machine.execAddR rd s
  | .addA adr => Sys2Proof.Machine.execAddA adr s
  | .subR rd => Sys2Proof.Machine.execSubR rd s
  | .subA adr => Sys2Proof.Machine.execSubA adr s
  | .adcR rd => Sys2Proof.Machine.execAdcR rd s
  | .adcA adr => Sys2Proof.Machine.execAdcA adr s
  | .lshR rd => Sys2Proof.Machine.execLshR rd s
  | .lshA adr => Sys2Proof.Machine.execLshA adr s
  | .rshR rd => Sys2Proof.Machine.execRshR rd s
  | .rshA adr => Sys2Proof.Machine.execRshA adr s
  | .orR rd => Sys2Proof.Machine.execOrR rd s
  | .orA adr => Sys2Proof.Machine.execOrA adr s
  | .andR rd => Sys2Proof.Machine.execAndR rd s
  | .andA adr => Sys2Proof.Machine.execAndA adr s
  | .xorR rd => Sys2Proof.Machine.execXorR rd s
  | .xorA adr => Sys2Proof.Machine.execXorA adr s
  | .cmp => Sys2Proof.Machine.execCmp s
  | .inc => Sys2Proof.Machine.execInc s
  | .dec => Sys2Proof.Machine.execDec s
  | .callA adr => Sys2Proof.Machine.execCallA adr s
  | .ret => Sys2Proof.Machine.execRet s
  | .pushI imm => Sys2Proof.Machine.execPushI imm s
  | .pushR rs => Sys2Proof.Machine.execPushR rs s
  | .pushA adr => Sys2Proof.Machine.execPushA adr s
  | .popR rd => Sys2Proof.Machine.execPopR rd s
  | .popA adr => Sys2Proof.Machine.execPopA adr s
  | .intR rs => Sys2Proof.Machine.execIntR rs s
  | .intI imm => Sys2Proof.Machine.execIntI imm s
  | .iret => Sys2Proof.Machine.execIret s
  | .cli => Sys2Proof.Machine.execCli s
  | .sei => Sys2Proof.Machine.execSei s
  | .hlt => Sys2Proof.Machine.execHlt s

end Sys2Proof.Machine
end

