-- ==== Sys2Proof/Machine/Fetch.lean ====
section
/-! DEFINITION. The first half of the instruction cycle (`30_encoding.md` rule R100): the opcode byte and the operand bytes are
read at PC, each read moving PC on by one (rule R36), and the bytes are decoded. -/

namespace Sys2Proof.Machine

/-- Read the byte at PC and move PC on, wrapping at the top (rule R36). -/
def fetchByte (s : State) : Res (Byte × State) :=
  andThen (memRead s.pc s) fun v => .next (v.1, setPc (v.2.pc + 1) v.2)

/-- The next `n` bytes, at ascending addresses. -/
def fetchBytes : Nat → State → Res (List Byte × State)
  | 0, s => .next ([], s)
  | n + 1, s =>
    andThen (fetchByte s) fun v =>
    andThen (fetchBytes n v.2) fun vs =>
    .next (v.1 :: vs.1, vs.2)

/-- The fault of bytes that spell no instruction, PC being where the fetch left it (rules R95, R99). -/
def decodeFault (pc : Addr) (e : DecodeError) : Fault :=
  match e with
  | .truncated => .truncated
  | .illegalOpcode op => .illegalOpcode op pc
  | .illegalRegCode code => .illegalRegCode code

/-- The operand bytes of a form, decoded after all of them are read (rules R100, R235). -/
def fetchOperands (f : Form) (s : State) : Res (Instr × State) :=
  andThen (fetchBytes (f.length - 1) s) fun bs =>
  match decodeOperands bs.2.cfg f bs.1 with
  | .ok d => .next (d.1, bs.2)
  | .error e => .fault (decodeFault bs.2.pc e)

/-- The instruction at PC and the state in which it executes, PC past its last byte (rule R100). -/
def fetch (s : State) : Res (Instr × State) :=
  andThen (fetchByte s) fun op =>
  match formOf op.2.cfg op.1 with
  | some f => fetchOperands f op.2
  | none => .fault (decodeFault op.2.pc (.illegalOpcode op.1))

/-- Store bytes at ascending addresses, wrapping, as the platform's loader does before a run (rule R246). -/
def storeBytes (m : Memory) (adr : Addr) : List Byte → Memory
  | [] => m
  | v :: vs => storeBytes (m.write adr v) (adr + 1) vs

end Sys2Proof.Machine
end

