-- ==== Sys2Proof/Machine/Step.lean ====
section
/-! DEFINITION. One step of the processor (`30_encoding.md` rule R100). -/

namespace Sys2Proof.Machine

/-- One whole instruction: fetched, decoded, executed. A halted processor fetches and executes nothing and no state changes
(rule R39); that this is a step to the same state is the model's choice (DESIGN CHOICE, log 13). -/
def step (s : State) : Host.Outcome State Fault Refusal :=
  if s.halted then .next s
  else andThen (fetch s) fun d => exec d.1 d.2

/-- The state with the instruction of the host's word stored at PC, and running (log 15). -/
def State.withFetchWord (s : State) (nbits w : Nat) : State :=
  { s with mem := storeBytes s.mem s.pc (wordBytes nbits w), halted := false }

end Sys2Proof.Machine
end

