-- ==== Sys2Proof/Machine/Run.lean ====
section
/-! DEFINITION. A run, its end and what it hands back (`70_reset_and_hazards.md` rule R266, `60_exceptions.md` rule R246). A run
starts at a launch, proceeds by the step of rule R100 while the machine is not halted, and ends where HLT has executed, in a state
with the halt latch set. A step that stops leaves no final state, and a run that never executes HLT does not end. -/

namespace Sys2Proof.Machine

/-- `s` is a state at which a run of `cfg` with the launch image `image` may start (rules R44, R261): PC, the halt latch and memory
are what the rules say; the registers, the flags, MAR and the counter of free values are unspecified, and so arbitrary here. -/
def IsLaunch (cfg : Config) (image : Memory) (s : State) : Prop :=
  s.pc = cfg.resetPc ∧ s.halted = false ∧ s.mem = image ∧ s.cfg = cfg

/-- How a run stands after a number of steps. -/
inductive Progress where
  /-- HLT has executed: this is the final state (rule R266). -/
  | ended (final : State)
  /-- No step has stopped and HLT has not executed. -/
  | running (s : State)
  /-- A step stopped with a model fault: there is no final state. -/
  | fault (e : Fault)
  /-- A step was refused: there is no final state. -/
  | refused (e : Refusal)
  deriving DecidableEq, Repr

/-- The run from `s`, followed for at most `n` steps. A halted machine takes no step (rule R100). -/
def runFor : Nat → State → Progress
  | 0, s => if s.halted then .ended s else .running s
  | n + 1, s =>
    if s.halted then .ended s
    else match step s with
      | .next t => runFor n t
      | .fault e => .fault e
      | .refused e => .refused e

/-- The run from `s` ends, and `final` is its final state. -/
def EndsIn (s final : State) : Prop := ∃ n, runFor n s = .ended final

/-- A step of the run from `s` stops, with a model fault or a refusal. -/
def Breaks (s : State) : Prop := ∃ n, (∃ e, runFor n s = .fault e) ∨ ∃ e, runFor n s = .refused e

/-- The run from `s` never executes HLT and never stops: a hang, which is no end. -/
def Hangs (s : State) : Prop := ∀ n, ∃ t, runFor n s = .running t

/-- What a run hands back: the registers, SR, PC and memory (rule R266). -/
structure HandedBack where
  a : Byte
  b : Byte
  x : Byte
  y : Byte
  sp : Byte
  sr : Status
  pc : Addr
  mem : Memory
  deriving DecidableEq, Repr

/-- What a run with this final state hands back. -/
def handBack (final : State) : HandedBack :=
  { a := final.a, b := final.b, x := final.x, y := final.y, sp := final.sp, sr := final.sr, pc := final.pc, mem := final.mem }

/-- Some run of `cfg` with the launch image `image` ends and hands back `r` (rules R246, R266). -/
def RunHandsBack (cfg : Config) (image : Memory) (r : HandedBack) : Prop :=
  ∃ s final, IsLaunch cfg image s ∧ EndsIn s final ∧ r = handBack final

end Sys2Proof.Machine
end

