-- ==== Sys2Proof/Safety.lean ====
section
/-! DEFINITION. The terms in which statements about the machine are made: which addresses can be accessed, which values a read
may deliver, what the flag rules say in numbers, where an instruction stores, and what a well-formed state is. They are written
from the spec's words, in numbers where the machine works on bits, so that a statement says more than the definition it is about. -/

namespace Sys2Proof.Machine

/-! ### Memory -/

/-- A read of the address has a meaning: `MEM_MAP` makes it ram or rom (rule R69). -/
def State.readable (s : State) (adr : Addr) : Prop :=
  kindAt s.cfg.memMap adr = .ram ∨ kindAt s.cfg.memMap adr = .rom

/-- A write of the address has a meaning: `MEM_MAP` makes it ram (rule R69). -/
def State.writable (s : State) (adr : Addr) : Prop := kindAt s.cfg.memMap adr = .ram

/-- The model's read of one byte: what memory holds at the address, if the spec fixes it. -/
def State.peek (s : State) (adr : Addr) : Option Byte := s.mem.read adr

/-- `v` is a byte that a read of the address may deliver: the byte memory holds, or any where nothing was written (R17). -/
def State.delivers (s : State) (adr : Addr) (v : Byte) : Prop := ∀ w, s.peek adr = some w → v = w

/-- The bytes `bs` stand at ascending addresses from `adr`, wrapping at the top, all readable (rules R36, R60). -/
def State.codeAt (s : State) (adr : Addr) : List Byte → Prop
  | [] => True
  | v :: vs => s.readable adr ∧ s.peek adr = some v ∧ s.codeAt (adr + 1) vs

/-- The address of the byte SP points at once `k` bytes more are pushed (rules R190, R191). -/
def State.stackTop (s : State) (k : Byte) : Addr := stackAddr s.cfg.stackPage (s.sp - k)

/-- Memory after as before, but for the bytes at `adrs`. -/
def SameBytesOutside (adrs : List Addr) (s t : State) : Prop := ∀ adr, adr ∉ adrs → t.peek adr = s.peek adr

/-- `o` is what an instruction answers that reads `adr` before anything else can stop it: the fault of an absent address, the
refusal of a device's (rules R69, R231). -/
def StopsRead (s : State) (adr : Addr) (o : Res State) : Prop :=
  (kindAt s.cfg.memMap adr = .absent → o = .fault (.absentMemory adr))
    ∧ (kindAt s.cfg.memMap adr = .device → o = .refused (.deviceAccess adr))

/-- The same of a write, which rom stops too (rules R69, R231). -/
def StopsWrite (s : State) (adr : Addr) (o : Res State) : Prop :=
  StopsRead s adr o ∧ (kindAt s.cfg.memMap adr = .rom → o = .fault (.writeToRom adr))

/-- The same of the two reads of entry `n` of a table of handler addresses at `base` (rules R12, R215). -/
def StopsTableRead (s : State) (base : Addr) (n : Byte) (o : Res State) : Prop :=
  StopsRead s (base + 2 * n.setWidth 16) o
    ∧ (s.readable (base + 2 * n.setWidth 16) → StopsRead s (base + 2 * n.setWidth 16 + 1) o)

/-! ### Registers -/

/-- Which bytes of an instruction of a format are register codes, counted from the opcode byte, byte 0 (rule R92). -/
def regBytes : Format → List Nat
  | .op | .opA16 | .opI8 => []
  | .opR | .opRI8 | .opRA16 => [1]
  | .opRR => [1, 2]
  | .opA16R => [3]


/-- `v` is a byte that a read of the register may deliver: its value; for SR its five bits, the other three free (R32, R33). -/
def State.regDelivers (s : State) (r : Reg) (v : Byte) : Prop :=
  match r with
  | .a => v = s.a
  | .b => v = s.b
  | .x => v = s.x
  | .y => v = s.y
  | .sp => v = s.sp
  | .sr => v.getLsbD 7 = s.sr.ie ∧ v.getLsbD 3 = s.sr.of ∧ v.getLsbD 2 = s.sr.sf ∧ v.getLsbD 1 = s.sr.zf ∧ v.getLsbD 0 = s.sr.cf

/-- The state with register `r` written: that register and no other piece of state (rules R11, R33). -/
def State.withReg (s : State) (r : Reg) (v : Byte) : State :=
  { s with
    a := if r = .a then v else s.a
    b := if r = .b then v else s.b
    x := if r = .x then v else s.x
    y := if r = .y then v else s.y
    sp := if r = .sp then v else s.sp
    sr := if r = .sr then
        { ie := v.getLsbD 7, of := v.getLsbD 3, sf := v.getLsbD 2, zf := v.getLsbD 1, cf := v.getLsbD 0 }
      else s.sr }

/-! ### The flag rules in numbers (rules R160 to R163); IE is in none of them -/

/-- The flags of `a + b + cin` (rule R160). -/
def AddFlags (a b : Byte) (cin : Bool) (old new : Status) : Prop :=
  new.ie = old.ie
    ∧ (new.cf = true ↔ 256 ≤ a.toNat + b.toNat + cin.toNat)
    ∧ (new.zf = true ↔ (a.toNat + b.toNat + cin.toNat) % 256 = 0)
    ∧ (new.sf = true ↔ 128 ≤ (a.toNat + b.toNat + cin.toNat) % 256)
    ∧ (new.of = true ↔ a.toInt + b.toInt + cin.toNat < -128 ∨ 127 < a.toInt + b.toInt + cin.toNat)

/-- The flags of `a - b` (rule R161). -/
def SubFlags (a b : Byte) (old new : Status) : Prop :=
  new.ie = old.ie
    ∧ (new.cf = true ↔ a.toNat < b.toNat)
    ∧ (new.zf = true ↔ a = b)
    ∧ (new.sf = true ↔ 128 ≤ (a.toNat + 256 - b.toNat) % 256)
    ∧ (new.of = true ↔ a.toInt - b.toInt < -128 ∨ 127 < a.toInt - b.toInt)

/-- The flags of a bitwise result (rule R162). -/
def LogicFlags (res : Byte) (old new : Status) : Prop :=
  new.ie = old.ie ∧ new.cf = false ∧ (new.zf = true ↔ res.toNat = 0) ∧ (new.sf = true ↔ 128 ≤ res.toNat) ∧ new.of = false

/-- The flags of a shifted result; nothing is said of CF and OF, which are free (rule R163). -/
def ShiftFlags (res : Byte) (old new : Status) : Prop :=
  new.ie = old.ie ∧ (new.zf = true ↔ res.toNat = 0) ∧ (new.sf = true ↔ 128 ≤ res.toNat)

/-- OF, SF, ZF, CF read as a number, the row of the jump table of `95_test_vectors.md` section 2.3 (bits SR[3:0]). -/
def Status.flagRow (st : Status) : Nat := 8 * st.of.toNat + 4 * st.sf.toNat + 2 * st.zf.toNat + st.cf.toNat

/-! ### Shapes of completion -/

/-- The ALU operation `i` with a register destination completes: the result in that register, the flags as `flags` says, and
nothing else changed but the model's counter of free values (rule R164). -/
def AluToReg (i : Reg → Instr) (res : State → Byte) (flags : State → Status → Prop) : Prop :=
  ∀ (s : State) (rd : Reg), rd ≠ .sr →
    ∃ t, exec (i rd) s = .next t ∧ flags s t.sr ∧ t = { s.withReg rd (res s) with sr := t.sr, draws := t.draws }

/-- The ALU operation `i` with a memory destination completes: the result in that byte, the flags as `flags` says, and nothing
else changed but MAR and the model's counter of free values (rule R164). -/
def AluToMem (i : Addr → Instr) (res : State → Byte) (flags : State → Status → Prop) : Prop :=
  ∀ (s : State) (adr : Addr), s.writable adr →
    ∃ t, exec (i adr) s = .next t ∧ flags s t.sr
      ∧ t = { s with sr := t.sr, mem := t.mem, mar := t.mar, draws := t.draws }
      ∧ t.peek adr = some (res s) ∧ SameBytesOutside [adr] s t

/-- The jump `i` is taken in `s`, whatever its target: PC is the target and nothing else changed (rule R140). -/
def Takes (i : Addr → Instr) (s : State) : Prop := ∀ adr, exec (i adr) s = .next { s with pc := adr }

/-- The jump `i` is not taken in `s`, whatever its target: nothing changed (rule R140). -/
def FallsThrough (i : Addr → Instr) (s : State) : Prop := ∀ adr, exec (i adr) s = .next s

/-- In `s` exactly one of the jumps `i` and `j` is taken. -/
def OneTaken (i j : Addr → Instr) (s : State) : Prop :=
  (Takes i s ∧ FallsThrough j s) ∨ (FallsThrough i s ∧ Takes j s)

/-- The jump `i` with target `adr` completes in `s`: it is encoded as `op` and the target, low byte first, and it is taken
exactly when the bit of `taken` at the row of the flags is 1 (rule R140; `95_test_vectors.md` section 2.3). -/
def JumpsBy (op : Byte) (taken : BitVec 16) (i : Addr → Instr) (s : State) (adr : Addr) : Prop :=
  encode s.cfg (i adr) = some [op, lowByte adr, highByte adr]
    ∧ exec (i adr) s = .next { s with pc := if taken.getLsbD s.sr.flagRow then adr else s.pc }

/-- `t` is `s` after the return address `s.pc` is pushed and PC is `target`: SP two lower, the low byte of the return address
at the lower stack address, nothing else changed but MAR and the counter of free values (rules R191, R192, R194, R215). -/
def CalledTo (s t : State) (target : Addr) : Prop :=
  t = { s with pc := target, sp := s.sp - 2, mem := t.mem, mar := t.mar, draws := t.draws }
    ∧ t.peek (s.stackTop 1) = some (highByte s.pc)
    ∧ t.peek (s.stackTop 2) = some (lowByte s.pc)
    ∧ SameBytesOutside [s.stackTop 1, s.stackTop 2] s t

/-- `t` is `s` after the return address on top of the stack is popped into PC, memory untouched (rules R191, R193, R195). -/
def ReturnedFrom (s t : State) : Prop :=
  t = { s with pc := t.pc, sp := s.sp + 2, mar := t.mar, draws := t.draws }
    ∧ s.delivers (s.stackTop 0) (lowByte t.pc)
    ∧ s.delivers (stackAddr s.cfg.stackPage (s.sp + 1)) (highByte t.pc)

/-! ### INT_TARGET (rule R215) -/

/-- The platform has an `INT_TARGET`, and vector `n` can be read from where it keeps it. -/
def State.hasTarget (s : State) (n : Byte) : Prop :=
  match s.cfg.intTarget with
  | .absent => False
  | .uninterpreted => True
  | .table base => s.readable (base + 2 * n.setWidth 16) ∧ s.readable (base + 2 * n.setWidth 16 + 1)
  | .entries _ _ => True

/-- `target` is `INT_TARGET(n, Mem)` with the memory of `s`. -/
def State.targetIs (s : State) (n : Byte) (target : Addr) : Prop :=
  match s.cfg.intTarget with
  | .absent => False
  | .uninterpreted => target = Config.intTargetFn n s.mem
  | .table base =>
    s.delivers (base + 2 * n.setWidth 16) (lowByte target) ∧ s.delivers (base + 2 * n.setWidth 16 + 1) (highByte target)
  | .entries base stride => target = base + n.setWidth 16 * stride

/-! ### Which instructions do what (tables of R31, R47 and R77) -/

/-- The bytes an instruction stores to, in the state it executes in (the data writes of rule R77). -/
def storedTo (s : State) : Instr → List Addr
  | .movAR adr _ | .addA adr | .subA adr | .adcA adr | .lshA adr | .rshA adr | .orA adr | .andA adr | .xorA adr | .popA adr =>
    [adr]
  | .pushI _ | .pushR _ | .pushA _ => [s.stackTop 1]
  | .callA _ | .intR _ | .intI _ => [s.stackTop 1, s.stackTop 2]
  | .movRR _ _ | .movRI _ _ | .movRA _ _ | .jmp _ | .jo _ | .jno _ | .js _ | .jns _ | .je _ | .jne _ | .jb _ | .jnb _
  | .jbe _ | .ja _ | .jl _ | .jge _ | .jle _ | .jg _ | .addR _ | .subR _ | .adcR _ | .lshR _ | .rshR _ | .orR _ | .andR _
  | .xorR _ | .cmp | .inc | .dec | .ret | .popR _ | .iret | .cli | .sei | .hlt => []

/-- The register an instruction names as its destination, if any. -/
def namedDest : Instr → Option Reg
  | .movRR rd _ | .movRI rd _ | .movRA rd _ | .addR rd | .subR rd | .adcR rd | .lshR rd | .rshR rd | .orR rd | .andR rd
  | .xorR rd | .popR rd => some rd
  | .movAR _ _ | .jmp _ | .jo _ | .jno _ | .js _ | .jns _ | .je _ | .jne _ | .jb _ | .jnb _ | .jbe _ | .ja _ | .jl _
  | .jge _ | .jle _ | .jg _ | .addA _ | .subA _ | .adcA _ | .lshA _ | .rshA _ | .orA _ | .andA _ | .xorA _ | .cmp | .inc
  | .dec | .callA _ | .ret | .pushI _ | .pushR _ | .pushA _ | .popA _ | .intR _ | .intI _ | .iret | .cli | .sei | .hlt => none

/-- The 11 ALU operations (rule R19). -/
def isAlu : Instr → Prop
  | .addR _ | .addA _ | .subR _ | .subA _ | .adcR _ | .adcA _ | .lshR _ | .lshA _ | .rshR _ | .rshA _ | .orR _ | .orA _
  | .andR _ | .andA _ | .xorR _ | .xorA _ | .cmp | .inc | .dec => True
  | .movRR _ _ | .movRI _ _ | .movRA _ _ | .movAR _ _ | .jmp _ | .jo _ | .jno _ | .js _ | .jns _ | .je _ | .jne _ | .jb _
  | .jnb _ | .jbe _ | .ja _ | .jl _ | .jge _ | .jle _ | .jg _ | .callA _ | .ret | .pushI _ | .pushR _ | .pushA _ | .popR _
  | .popA _ | .intR _ | .intI _ | .iret | .cli | .sei | .hlt => False

/-- The instructions that move SP without naming it: CALL, RET, PUSH, POP, INT, IRET (rule R20). -/
def usesStack : Instr → Prop
  | .callA _ | .ret | .pushI _ | .pushR _ | .pushA _ | .popR _ | .popA _ | .intR _ | .intI _ | .iret => True
  | .movRR _ _ | .movRI _ _ | .movRA _ _ | .movAR _ _ | .jmp _ | .jo _ | .jno _ | .js _ | .jns _ | .je _ | .jne _ | .jb _
  | .jnb _ | .jbe _ | .ja _ | .jl _ | .jge _ | .jle _ | .jg _ | .addR _ | .addA _ | .subR _ | .subA _ | .adcR _ | .adcA _
  | .lshR _ | .lshA _ | .rshR _ | .rshA _ | .orR _ | .orA _ | .andR _ | .andA _ | .xorR _ | .xorA _ | .cmp | .inc | .dec
  | .cli | .sei | .hlt => False

/-- The instructions that may write PC: the jumps, CALL, RET, INT, IRET (rule R37). -/
def transfersControl : Instr → Prop
  | .jmp _ | .jo _ | .jno _ | .js _ | .jns _ | .je _ | .jne _ | .jb _ | .jnb _ | .jbe _ | .ja _ | .jl _ | .jge _ | .jle _
  | .jg _ | .callA _ | .ret | .intR _ | .intI _ | .iret => True
  | .movRR _ _ | .movRI _ _ | .movRA _ _ | .movAR _ _ | .addR _ | .addA _ | .subR _ | .subA _ | .adcR _ | .adcA _ | .lshR _
  | .lshA _ | .rshR _ | .rshA _ | .orR _ | .orA _ | .andR _ | .andA _ | .xorR _ | .xorA _ | .cmp | .inc | .dec | .pushI _
  | .pushR _ | .pushA _ | .popR _ | .popA _ | .cli | .sei | .hlt => False

/-! ### Runs -/

/-- `t` is `s`, or comes from it by steps of machines that are not halted (rules R100, R266). -/
inductive Reaches : State → State → Prop where
  | here (s : State) : Reaches s s
  | after {s t u : State} (running : s.halted = false) (first : step s = .next t) (rest : Reaches t u) : Reaches s u

/-! ### Well-formed states -/

/-- Memory is in its canonical form and the parameters are ones the spec admits. -/
def State.Inv (s : State) : Prop := s.mem.wf = true ∧ s.cfg.wf = true

end Sys2Proof.Machine
end

