-- ==== Sys2Proof/Certificates/Slice0/Obligations.lean ====
section
/-! DEFINITION. The statements for the provers. Each is about every state and every platform (`State.cfg` is arbitrary), so
none rests on a value that `State.reset` or a free value happens to have. Their terms are in `Sys2Proof/Safety.lean`. -/

open Sys2Proof Sys2Proof.Machine

/-! ### Encoding (`30_encoding.md`) -/

/-- Every well-formed instruction has an encoding, and decoding it, whatever follows, gives the instruction back. -/
def Obligations.DecodeOfEncodeIsInstr : Prop :=
  ∀ (c : Config) (i : Instr) (rest : List Byte), c.wf = true → i.wf c = true →
    ∃ w, encode c i = some w ∧ decode c (w ++ rest) = .ok (i, rest)

/-- Bytes that decode are the encoding of the instruction they decode to: each instruction has one spelling. -/
def Obligations.EncodeOfDecodeIsBytes : Prop :=
  ∀ (c : Config) (i : Instr) (bs rest : List Byte), c.wf = true → decode c bs = .ok (i, rest) →
    i.wf c = true ∧ ∃ w, encode c i = some w ∧ bs = w ++ rest

/-- Three words the spec works out ("the instruction `JNE 0x1234` is the three bytes `D6 34 12`", "`HLT` is the one byte `FF`",
"`JMP 0x0000` is `D0 00 00`"), under every platform and whatever follows; the spec marks the sentence as derived from rules R93
and R96. -/
def Obligations.WorkedEncodingsDecode : Prop :=
  ∀ (c : Config) (rest : List Byte),
    (encode c (.jne 0x1234) = some [0xD6, 0x34, 0x12] ∧ decode c (0xD6 :: 0x34 :: 0x12 :: rest) = .ok (.jne 0x1234, rest))
      ∧ (encode c .hlt = some [0xFF] ∧ decode c (0xFF :: rest) = .ok (.hlt, rest))
      ∧ (encode c (.jmp 0x0000) = some [0xD0, 0x00, 0x00] ∧ decode c (0xD0 :: 0x00 :: 0x00 :: rest) = .ok (.jmp 0x0000, rest))

/-- The opcode byte alone fixes the form and the length: "No later byte changes the length", which the spec marks as derived from
rules R90 and R92. -/
def Obligations.OpcodeAloneFixesFormAndLength : Prop :=
  ∀ (c : Config) (op : Byte) (bs rest : List Byte) (i : Instr), decode c (op :: bs) = .ok (i, rest) →
    formOf c op = some i.form ∧ (op :: bs).length = i.form.length + rest.length

/-- The 16 opcodes the source assigns, with their formats, whatever `OPCODE_MAP` is (rule R96). -/
def Obligations.SourceOpcodesUnderEveryMap : Prop :=
  ∀ (c : Config) (op : Byte) (f : Form) (fmt : Format),
    (op, f, fmt) ∈ [((0xD0 : Byte), Form.jmp, Format.opA16), (0xD1, .jo, .opA16), (0xD2, .jno, .opA16), (0xD3, .js, .opA16),
      (0xD4, .jns, .opA16), (0xD5, .je, .opA16), (0xD6, .jne, .opA16), (0xD7, .jb, .opA16), (0xD8, .jnb, .opA16),
      (0xD9, .jbe, .opA16), (0xDA, .ja, .opA16), (0xDB, .jl, .opA16), (0xDC, .jge, .opA16), (0xDD, .jle, .opA16),
      (0xDE, .jg, .opA16), (0xFF, .hlt, .op)] →
    formOf c op = some f ∧ opcodeOf c f = some op ∧ f.format = fmt

/-- A register byte names one of the six registers exactly when it is one of the six codes; A is 0x00, B is 0x01 (rule R95). -/
def Obligations.RegisterCodesNameSixRegisters : Prop :=
  ∀ c : Config, c.wf = true →
    regCode c .a = 0x00 ∧ regCode c .b = 0x01
      ∧ (∀ r q, regCode c r = regCode c q → r = q)
      ∧ (∀ r, regOf c (regCode c r) = some r)
      ∧ ∀ v, (∀ r, regCode c r ≠ v) ↔ regOf c v = none

/-- 16-bit values and stack addresses in numbers: `hi:lo` is `hi * 256 + lo`, and a stack address is `STACK_PAGE * 256 + SP`
(rules R8, R190). -/
def Obligations.AddressBytesInNumbers : Prop :=
  (∀ lo hi : Byte, (joinBytes lo hi).toNat = hi.toNat * 256 + lo.toNat)
    ∧ (∀ v : Addr, (lowByte v).toNat = v.toNat % 256 ∧ (highByte v).toNat = v.toNat / 256)
    ∧ ∀ page sp : Byte, (stackAddr page sp).toNat = page.toNat * 256 + sp.toNat

/-! ### The instruction cycle (R100) and its stops -/

/-- A running machine at bytes that decode executes the instruction they decode to, in the state whose PC is past them and
whose MAR is the address of the last of them (rules R36, R100; MAR by log 14). -/
def Obligations.StepRunsDecodedInstr : Prop :=
  ∀ (s : State) (i : Instr) (w : List Byte), s.halted = false → s.codeAt s.pc w → decode s.cfg w = .ok (i, []) →
    step s = exec i { s with pc := s.pc + BitVec.ofNat 16 w.length, mar := s.pc + BitVec.ofNat 16 w.length - 1 }

/-- A halted machine executes nothing and no state changes (rule R39); that it takes a step to itself is the model's choice
(log 13). -/
def Obligations.HaltedStaysAsItIs : Prop :=
  ∀ s : State, s.halted = true → step s = .next s

/-- A blank opcode byte that `OPCODE_MAP` does not assign stops the fetch, PC one past it: it is no no-op (rule R99; that the fault
carries PC is log 16). -/
def Obligations.UnassignedOpcodeFaults : Prop :=
  ∀ (s : State) (op : Byte), s.halted = false → s.readable s.pc → s.peek s.pc = some op → opcodeIsBlank op = true →
    (∀ e ∈ s.cfg.opcodeMap, e.2 ≠ op) → step s = .fault (.illegalOpcode op (s.pc + 1))

/-- Where the bytes of a form stand at PC and the first of its register bytes that is none of the six codes is `v`, the step faults
with `v`; an operand byte at an absent address stops the step first, whatever the bytes before it are; and no step faults so on a
byte that is a code (rules R95, R100, R235; the form of the fault is log 16). -/
def Obligations.BadRegisterCodeFaults : Prop :=
  (∀ (s : State) (op : Byte) (f : Form) (w : List Byte) (k : Nat) (v : Byte), s.halted = false → s.codeAt s.pc w →
      w.head? = some op → formOf s.cfg op = some f → w.length = f.length →
      k ∈ regBytes f.format → w[k]? = some v → (∀ r, regCode s.cfg r ≠ v) →
      (∀ j ∈ regBytes f.format, j < k → ∃ r, w[j]? = some (regCode s.cfg r)) →
      step s = .fault (.illegalRegCode v))
    ∧ (∀ (s : State) (op : Byte) (f : Form) (k : Nat), s.halted = false → s.peek s.pc = some op → formOf s.cfg op = some f →
      k < f.length → (∀ j < k, s.readable (s.pc + BitVec.ofNat 16 j)) →
      kindAt s.cfg.memMap (s.pc + BitVec.ofNat 16 k) = .absent →
      step s = .fault (.absentMemory (s.pc + BitVec.ofNat 16 k)))
    ∧ ∀ (s : State) (v : Byte), step s = .fault (.illegalRegCode v) → ∀ r, regCode s.cfg r ≠ v

/-- Under a narrowed `MEM_MAP`, the fetch of an opcode byte or of an operand byte and the load and the store of MOV stop by name:
absent on any access, rom on a write, a device on any access (rules R69, R231, R235; which stop is a refusal is log 16). -/
def Obligations.MemoryMapStops : Prop :=
  ∀ (s : State) (adr : Addr),
    (∀ r, StopsRead s adr (exec (.movRA r adr) s) ∧ StopsWrite s adr (exec (.movAR adr r) s))
      ∧ (s.halted = false →
        (s.pc = adr → StopsRead s adr (step s))
          ∧ ∀ (op : Byte) (f : Form) (k : Nat), s.peek s.pc = some op → formOf s.cfg op = some f → k < f.length →
            (∀ j < k, s.readable (s.pc + BitVec.ofNat 16 j)) → s.pc + BitVec.ofNat 16 k = adr → StopsRead s adr (step s))

/-- An instruction stops only for a cause its stop names: an address `MEM_MAP` marks absent, rom it stores to, or a device; SR as
the destination of an ALU operation; INT without `INT_TARGET` (rules R69, R165, R215, R231; which stops are refusals is log 16 and
log 19). -/
def Obligations.StopsNameTheirCause : Prop :=
  ∀ (i : Instr) (s : State),
    (∀ e, exec i s = .fault e →
        (∃ adr, e = .absentMemory adr ∧ kindAt s.cfg.memMap adr = .absent)
          ∨ ∃ adr, e = .writeToRom adr ∧ kindAt s.cfg.memMap adr = .rom ∧ adr ∈ storedTo s i)
      ∧ ∀ e, exec i s = .refused e →
        (e = .aluDestSR ∧ isAlu i ∧ namedDest i = some .sr)
          ∨ (e = .intTargetOpen ∧ s.cfg.intTarget = .absent ∧ ((∃ n, i = .intI n) ∨ ∃ rs, i = .intR rs))
          ∨ ∃ adr, e = .deviceAccess adr ∧ kindAt s.cfg.memMap adr = .device

/-- No instruction completes that stores to an address `MEM_MAP` does not make ram (rules R69, R77). -/
def Obligations.CompletedStoresWereToRam : Prop :=
  ∀ (i : Instr) (s t : State), exec i s = .next t → ∀ adr ∈ storedTo s i, s.writable adr

/-- A step fetches every byte of a form before it decodes: no step stops on an instruction cut short (rule R100); the stop that is
ruled out is the decoder's own (log 16). -/
def Obligations.StepNeverCutsInstrShort : Prop := ∀ s : State, step s ≠ .fault .truncated

/-! ### What every step keeps -/

/-- Every step keeps memory's canonical form and admissible parameters. -/
def Obligations.StepKeepsInv : Prop := ∀ s t : State, s.Inv → step s = .next t → t.Inv

/-- The reset state, and every launch of a canonical image under admissible parameters, is well formed. -/
def Obligations.LaunchMeetsInv : Prop :=
  State.reset.Inv ∧ ∀ (c : Config) (image : Memory), c.wf = true → image.wf = true → (State.launch c image).Inv

/-- The platform's parameters are constant for a run (rules R7, R190). -/
def Obligations.StepKeepsPlatform : Prop := ∀ s t : State, step s = .next t → t.cfg = s.cfg

/-- No step changes a byte that `MEM_MAP` does not make ram (rule R69). -/
def Obligations.OnlyRamChanges : Prop :=
  ∀ (s t : State) (adr : Addr), step s = .next t → ¬ s.writable adr → t.peek adr = s.peek adr

/-- MAR is invisible: what a running machine does next does not depend on it (rule R38). That the model holds MAR at all is its own
choice (log 14). -/
def Obligations.MarIsInvisible : Prop :=
  ∀ (s : State) (m : Addr), s.halted = false → step { s with mar := m } = step s

/-! ### Which instruction changes what (tables of R31, R47, R77) -/

/-- An instruction changes no byte of memory but those the table of rule R77 says it writes. -/
def Obligations.StoresOnlyWhereTabled : Prop :=
  ∀ (i : Instr) (s t : State), exec i s = .next t → SameBytesOutside (storedTo s i) s t

/-- A, B, X and Y change only as a named destination, and A also by INC and DEC (rules R21, R22, R23). -/
def Obligations.RegistersChangeOnlyAsDestination : Prop :=
  ∀ (i : Instr) (s t : State), exec i s = .next t →
    (namedDest i ≠ some .a → i ≠ .inc → i ≠ .dec → t.a = s.a)
      ∧ (namedDest i ≠ some .b → t.b = s.b)
      ∧ (namedDest i ≠ some .x → t.x = s.x)
      ∧ (namedDest i ≠ some .y → t.y = s.y)

/-- SP changes only through CALL, RET, PUSH, POP, INT, IRET, or as a named destination (rule R202). -/
def Obligations.SpChangesOnlyByStackOrName : Prop :=
  ∀ (i : Instr) (s t : State), exec i s = .next t → ¬ usesStack i → namedDest i ≠ some .sp → t.sp = s.sp

/-- CF, ZF, SF and OF change only by the 11 ALU operations or through SR as a named destination; no ALU operation changes IE
(rules R30, R31). -/
def Obligations.FlagsChangeOnlyByAluOrSr : Prop :=
  ∀ (i : Instr) (s t : State), exec i s = .next t →
    (¬ isAlu i → namedDest i ≠ some .sr → t.sr.cf = s.sr.cf ∧ t.sr.zf = s.sr.zf ∧ t.sr.sf = s.sr.sf ∧ t.sr.of = s.sr.of)
      ∧ (isAlu i → t.sr.ie = s.sr.ie)

/-- IE changes only by CLI, by SEI, or through SR as the destination of MOV or POP; neither INT nor IRET changes it (R233). -/
def Obligations.IeChangesOnlyByCliSeiOrSr : Prop :=
  ∀ (i : Instr) (s t : State), exec i s = .next t → t.sr.ie ≠ s.sr.ie →
    i = .cli ∨ i = .sei ∨ (∃ rs, i = .movRR .sr rs) ∨ (∃ v, i = .movRI .sr v) ∨ (∃ adr, i = .movRA .sr adr) ∨ i = .popR .sr

/-- PC is written only by the jumps, CALL, RET, INT and IRET; every other instruction leaves it past itself (rule R37). -/
def Obligations.PcWrittenOnlyByTransfers : Prop :=
  ∀ (i : Instr) (s t : State), exec i s = .next t → ¬ transfersControl i → t.pc = s.pc

/-- HLT is the only instruction that stops the processor, and none restarts it (rules R39, R220). So a run ends where HLT has
executed and nowhere else: its final state is the halted state it reaches, there is one at most, a step that stops leaves none, and
a run that goes on for ever has none; it hands back the registers, SR, PC and memory of that state (rule R266). A halted machine's
step to itself, which is the model's choice (log 13), is no step of a run. -/
def Obligations.OnlyHltHalts : Prop :=
  (∀ (i : Instr) (s t : State), exec i s = .next t → (t.halted = true ↔ s.halted = true ∨ i = .hlt))
    ∧ (∀ s : State,
      (∀ f, EndsIn s f ↔ Reaches s f ∧ f.halted = true)
        ∧ (∀ f g, EndsIn s f → EndsIn s g → f = g)
        ∧ (∀ f, s.halted = false → EndsIn s f →
          ∃ t s1, Reaches s t ∧ t.halted = false ∧ fetch t = .next (.hlt, s1) ∧ f = { s1 with halted := true })
        ∧ (Breaks s ↔ ∃ t, Reaches s t ∧ t.halted = false ∧ ∀ u, step t ≠ .next u)
        ∧ (Hangs s ↔ ∀ t, Reaches s t → t.halted = false ∧ ∃ u, step t = .next u)
        ∧ ((∃ f, EndsIn s f) ∨ Breaks s ∨ Hangs s)
        ∧ ¬ ((∃ f, EndsIn s f) ∧ Breaks s) ∧ ¬ ((∃ f, EndsIn s f) ∧ Hangs s) ∧ ¬ (Breaks s ∧ Hangs s))
    ∧ ∀ (c : Config) (image : Memory) (r : HandedBack), RunHandsBack c image r ↔
      ∃ s f : State, s.pc = c.resetPc ∧ s.halted = false ∧ s.mem = image ∧ s.cfg = c ∧ Reaches s f ∧ f.halted = true
        ∧ r.a = f.a ∧ r.b = f.b ∧ r.x = f.x ∧ r.y = f.y ∧ r.sp = f.sp ∧ r.sr = f.sr ∧ r.pc = f.pc ∧ r.mem = f.mem

/-! ### Move (`40_move.md`) -/

/-- MOV to a register, from a constant, a register or memory, completes: the destination holds the byte, SR its five bits, and
nothing else changes but MAR on a memory read and the counter of free values (rules R33, R130, R131, R132). -/
def Obligations.MovToRegisterCompletes : Prop :=
  ∀ (s : State) (rd : Reg),
    (∀ imm, exec (.movRI rd imm) s = .next (s.withReg rd imm))
      ∧ (∀ rs, ∃ v d, s.regDelivers rs v ∧ exec (.movRR rd rs) s = .next { s.withReg rd v with draws := d })
      ∧ ∀ adr, s.readable adr →
        ∃ v m d, s.delivers adr v ∧ exec (.movRA rd adr) s = .next { s.withReg rd v with mar := m, draws := d }

/-- MOV to memory completes: the byte at the address is the register's, every other byte and every register is as before
(rule R133). -/
def Obligations.MovToMemoryCompletes : Prop :=
  ∀ (s : State) (adr : Addr) (rs : Reg), s.writable adr →
    ∃ v t, s.regDelivers rs v ∧ exec (.movAR adr rs) s = .next t
      ∧ t = { s with mem := t.mem, mar := t.mar, draws := t.draws }
      ∧ t.peek adr = some v ∧ SameBytesOutside [adr] s t

/-- A load after a store to the same address sees the stored byte (rule R71). -/
def Obligations.LoadSeesStore : Prop :=
  ∀ (s : State) (adr : Addr), s.writable adr →
    ∃ t u, exec (.movAR adr .a) s = .next t ∧ exec (.movRA .b adr) t = .next u ∧ u.b = s.a

/-- A byte stored into the instruction at PC, opcode byte or operand byte, is the byte the next fetch sees: the next step executes
what the bytes decode to with the stored byte among them (rule R74; MAR by log 14). -/
def Obligations.NextFetchSeesStore : Prop :=
  ∀ (s : State) (i : Instr) (w : List Byte) (k : Nat), s.halted = false → decode s.cfg w = .ok (i, []) →
    w[k]? = some s.a → s.writable (s.pc + BitVec.ofNat 16 k) →
    (∀ j v, j ≠ k → w[j]? = some v →
      s.readable (s.pc + BitVec.ofNat 16 j) ∧ s.peek (s.pc + BitVec.ofNat 16 j) = some v) →
    ∃ t, exec (.movAR (s.pc + BitVec.ofNat 16 k) .a) s = .next t ∧ t = { s with mem := t.mem, mar := t.mar }
      ∧ step t = exec i { t with pc := s.pc + BitVec.ofNat 16 w.length, mar := s.pc + BitVec.ofNat 16 w.length - 1 }

/-! ### Jumps (`41_jump.md`) -/

/-- JMP and the jumps on one flag: encoding, condition and effect; each leaves everything but PC as it was
(rules R141 to R149). -/
def Obligations.OneFlagJumpsComplete : Prop :=
  ∀ (s : State) (adr : Addr),
    JumpsBy 0xD0 0xFFFF .jmp s adr
      ∧ JumpsBy 0xD1 0xFF00 .jo s adr ∧ JumpsBy 0xD2 0x00FF .jno s adr
      ∧ JumpsBy 0xD3 0xF0F0 .js s adr ∧ JumpsBy 0xD4 0x0F0F .jns s adr
      ∧ JumpsBy 0xD5 0xCCCC .je s adr ∧ JumpsBy 0xD6 0x3333 .jne s adr
      ∧ JumpsBy 0xD7 0xAAAA .jb s adr ∧ JumpsBy 0xD8 0x5555 .jnb s adr

/-- The jumps on two and three flags (rules R150 to R155). -/
def Obligations.ManyFlagJumpsComplete : Prop :=
  ∀ (s : State) (adr : Addr),
    JumpsBy 0xD9 0xEEEE .jbe s adr ∧ JumpsBy 0xDA 0x1111 .ja s adr
      ∧ JumpsBy 0xDB 0x0FF0 .jl s adr ∧ JumpsBy 0xDC 0xF00F .jge s adr
      ∧ JumpsBy 0xDD 0xCFFC .jle s adr ∧ JumpsBy 0xDE 0x3003 .jg s adr

/-- In every state exactly one jump of each pair is taken, and after CMP or SUB each jump is taken exactly when A stands to B
as its name says. The spec marks the sentence ("for every value of SR exactly one of each pair is taken") as derived from rules
R146 to R155 and R161. -/
def Obligations.JumpNamesFitComparison : Prop :=
  (∀ s : State, OneTaken .jo .jno s ∧ OneTaken .js .jns s ∧ OneTaken .je .jne s ∧ OneTaken .jb .jnb s
      ∧ OneTaken .jbe .ja s ∧ OneTaken .jl .jge s ∧ OneTaken .jle .jg s)
    ∧ ∀ s t : State,
      (exec .cmp s = .next t ∨ (∃ rd, exec (.subR rd) s = .next t) ∨ ∃ adr, exec (.subA adr) s = .next t) →
      (Takes .je t ↔ s.a = s.b) ∧ (Takes .jne t ↔ s.a ≠ s.b)
        ∧ (Takes .jb t ↔ s.a.toNat < s.b.toNat) ∧ (Takes .jnb t ↔ s.b.toNat ≤ s.a.toNat)
        ∧ (Takes .jbe t ↔ s.a.toNat ≤ s.b.toNat) ∧ (Takes .ja t ↔ s.b.toNat < s.a.toNat)
        ∧ (Takes .jl t ↔ s.a.toInt < s.b.toInt) ∧ (Takes .jge t ↔ s.b.toInt ≤ s.a.toInt)
        ∧ (Takes .jle t ↔ s.a.toInt ≤ s.b.toInt) ∧ (Takes .jg t ↔ s.b.toInt < s.a.toInt)

/-! ### ALU (`42_alu.md`) -/

/-- `FlagsAdd` in numbers: carry out of the unsigned sum, zero and sign of the byte, overflow of the signed sum; the bit
formula of OF, which the spec marks as general knowledge, agrees (rule R160; log 21). -/
def Obligations.FlagsAddInNumbers : Prop :=
  ∀ (a b : Byte) (cin : Bool) (st : Status),
    AddFlags a b cin st (flagsAdd a b cin st)
      ∧ (addResult a b cin).toNat = (a.toNat + b.toNat + cin.toNat) % 256
      ∧ ((flagsAdd a b cin st).of = true ↔
          a.getLsbD 7 = b.getLsbD 7 ∧ (addResult a b cin).getLsbD 7 ≠ a.getLsbD 7)

/-- `FlagsSub` in numbers: the borrow, equality, sign, overflow of the signed difference, the bit formula of OF; and SF differs
from OF exactly when `a` is less than `b` signed (rule R161; the OF formula is marked as general knowledge, log 21). -/
def Obligations.FlagsSubInNumbers : Prop :=
  ∀ (a b : Byte) (st : Status),
    SubFlags a b st (flagsSub a b st)
      ∧ ((flagsSub a b st).of = true ↔ a.getLsbD 7 ≠ b.getLsbD 7 ∧ (subResult a b).getLsbD 7 ≠ a.getLsbD 7)
      ∧ ((flagsSub a b st).sf ≠ (flagsSub a b st).of ↔ a.toInt < b.toInt)

/-- ADD completes, to every register but SR and to every writable byte (rules R164, R166). -/
def Obligations.AddCompletes : Prop :=
  AluToReg .addR (fun s => s.a + s.b) (fun s => AddFlags s.a s.b false s.sr)
    ∧ AluToMem .addA (fun s => s.a + s.b) (fun s => AddFlags s.a s.b false s.sr)

/-- ADC completes, with the old CF as carry in (rules R164, R168). -/
def Obligations.AdcCompletes : Prop :=
  AluToReg .adcR (fun s => BitVec.ofNat 8 (s.a.toNat + s.b.toNat + s.sr.cf.toNat)) (fun s => AddFlags s.a s.b s.sr.cf s.sr)
    ∧ AluToMem .adcA (fun s => BitVec.ofNat 8 (s.a.toNat + s.b.toNat + s.sr.cf.toNat)) (fun s => AddFlags s.a s.b s.sr.cf s.sr)

/-- SUB completes: A minus B (rules R164, R167). -/
def Obligations.SubCompletes : Prop :=
  AluToReg .subR (fun s => BitVec.ofInt 8 ((s.a.toNat : Int) - s.b.toNat)) (fun s => SubFlags s.a s.b s.sr)
    ∧ AluToMem .subA (fun s => BitVec.ofInt 8 ((s.a.toNat : Int) - s.b.toNat)) (fun s => SubFlags s.a s.b s.sr)

/-- OR, AND and XOR complete (rules R164, R171, R172, R173). -/
def Obligations.BitwiseComplete : Prop :=
  (AluToReg .orR (fun s => s.a ||| s.b) (fun s => LogicFlags (s.a ||| s.b) s.sr)
      ∧ AluToMem .orA (fun s => s.a ||| s.b) (fun s => LogicFlags (s.a ||| s.b) s.sr))
    ∧ (AluToReg .andR (fun s => s.a &&& s.b) (fun s => LogicFlags (s.a &&& s.b) s.sr)
      ∧ AluToMem .andA (fun s => s.a &&& s.b) (fun s => LogicFlags (s.a &&& s.b) s.sr))
    ∧ (AluToReg .xorR (fun s => s.a ^^^ s.b) (fun s => LogicFlags (s.a ^^^ s.b) s.sr)
      ∧ AluToMem .xorA (fun s => s.a ^^^ s.b) (fun s => LogicFlags (s.a ^^^ s.b) s.sr))

/-- LSH and RSH complete: the whole of B is the count, the right shift is logical, CF and OF are free (rules R163, R164, R169,
R170). -/
def Obligations.ShiftsComplete : Prop :=
  (AluToReg .lshR (fun s => s.a <<< s.b.toNat) (fun s => ShiftFlags (s.a <<< s.b.toNat) s.sr)
      ∧ AluToMem .lshA (fun s => s.a <<< s.b.toNat) (fun s => ShiftFlags (s.a <<< s.b.toNat) s.sr))
    ∧ (AluToReg .rshR (fun s => s.a >>> s.b.toNat) (fun s => ShiftFlags (s.a >>> s.b.toNat) s.sr)
      ∧ AluToMem .rshA (fun s => s.a >>> s.b.toNat) (fun s => ShiftFlags (s.a >>> s.b.toNat) s.sr))

/-- CMP, INC and DEC complete: CMP writes the flags of A - B alone; INC and DEC write A and the flags of A + 1 and A - 1
(rules R174, R175, R176). -/
def Obligations.CmpIncDecComplete : Prop :=
  ∀ s : State,
    (∃ st, SubFlags s.a s.b s.sr st ∧ exec .cmp s = .next { s with sr := st })
      ∧ (∃ st, AddFlags s.a 1 false s.sr st ∧ exec .inc s = .next { s with a := s.a + 1, sr := st })
      ∧ ∃ st, SubFlags s.a 1 s.sr st ∧ exec .dec s = .next { s with a := s.a - 1, sr := st }

/-- SR as the destination of an ALU operation has no meaning (rule R165: "has no meaning in this spec"); that the model answers the
rule's `ModelFault(AluDestSR)` with a refusal is its own choice (log 19, log 16). -/
def Obligations.AluToSrIsRefused : Prop :=
  ∀ s : State,
    exec (.addR .sr) s = .refused .aluDestSR ∧ exec (.subR .sr) s = .refused .aluDestSR
      ∧ exec (.adcR .sr) s = .refused .aluDestSR ∧ exec (.lshR .sr) s = .refused .aluDestSR
      ∧ exec (.rshR .sr) s = .refused .aluDestSR ∧ exec (.orR .sr) s = .refused .aluDestSR
      ∧ exec (.andR .sr) s = .refused .aluDestSR ∧ exec (.xorR .sr) s = .refused .aluDestSR

/-- A memory destination is written, never read: the byte it held is no input of the operation (rule R164). -/
def Obligations.MemoryDestinationIsNotRead : Prop :=
  ∀ (s : State) (adr : Addr) (v : Byte) (i : Addr → Instr),
    i ∈ [Instr.addA, .subA, .adcA, .lshA, .rshA, .orA, .andA, .xorA] →
    exec (i adr) { s with mem := s.mem.write adr v } = exec (i adr) s

/-- ADC after ADD adds 16-bit numbers: the carry of the low bytes enters the high bytes (rule R168). -/
def Obligations.AddThenAdcAddsWords : Prop :=
  ∀ (s : State) (m n : Addr),
    ∃ t u, exec (.addR .x) { s with a := lowByte m, b := lowByte n } = .next t
      ∧ exec (.adcR .y) { t with a := highByte m, b := highByte n } = .next u
      ∧ joinBytes u.x u.y = m + n ∧ (u.sr.cf = true ↔ 65536 ≤ m.toNat + n.toNat)

/-! ### Procedures and the stack (`43_stack.md`) -/

/-- `Push8` and `Pop8`: full descending, SP modulo 256; a pop reads the byte at SP and does not change memory; a pop after a push
gives the byte back and restores SP, whatever SP was (rule R191). -/
def Obligations.PopUndoesPush : Prop :=
  (∀ (s : State) (v : Byte), s.writable (s.stackTop 1) →
    ∃ t u, push8 v s = .next t
      ∧ t.sp.toNat = (s.sp.toNat + 255) % 256
      ∧ t = { s with sp := t.sp, mem := t.mem, mar := t.mar }
      ∧ t.peek (stackAddr s.cfg.stackPage t.sp) = some v ∧ SameBytesOutside [s.stackTop 1] s t
      ∧ pop8 t = .next (v, u) ∧ u.sp = s.sp ∧ u = { t with sp := u.sp, mar := u.mar })
    ∧ ∀ s : State, s.readable (stackAddr s.cfg.stackPage s.sp) →
      ∃ v t, pop8 s = .next (v, t) ∧ s.delivers (stackAddr s.cfg.stackPage s.sp) v
        ∧ t.sp.toNat = (s.sp.toNat + 1) % 256 ∧ t = { s with sp := t.sp, mar := t.mar, draws := t.draws }

/-- `Push16` pushes the high byte, then the low byte, and so leaves the low byte at the lower address; `Pop16` pops the low byte,
then the high byte, and is its inverse (rules R192, R193). -/
def Obligations.WordsOnStackAreLittleEndian : Prop :=
  (∀ (s : State) (v : Addr), s.writable (s.stackTop 1) → s.writable (s.stackTop 2) →
    ∃ t u, push16 v s = .next t
      ∧ (∃ s1, push8 (highByte v) s = .next s1 ∧ push8 (lowByte v) s1 = .next t)
      ∧ t.peek (s.stackTop 2) = some (lowByte v) ∧ t.peek (s.stackTop 1) = some (highByte v)
      ∧ t.sp = s.sp - 2 ∧ SameBytesOutside [s.stackTop 1, s.stackTop 2] s t
      ∧ pop16 t = .next (v, u) ∧ u.sp = s.sp ∧ u.mem = t.mem)
    ∧ ∀ s : State, s.readable (stackAddr s.cfg.stackPage s.sp) → s.readable (stackAddr s.cfg.stackPage (s.sp + 1)) →
      ∃ lo hi v s1 t, pop8 s = .next (lo, s1) ∧ pop8 s1 = .next (hi, t) ∧ pop16 s = .next (v, t)
        ∧ v.toNat = hi.toNat * 256 + lo.toNat

/-- PUSH of a constant, a register or a memory byte completes: the source is read before SP moves (rules R196, R197, R198). -/
def Obligations.PushCompletes : Prop :=
  ∀ s : State, s.writable (s.stackTop 1) →
    (∀ imm, ∃ t, exec (.pushI imm) s = .next t
        ∧ t = { s with sp := s.sp - 1, mem := t.mem, mar := t.mar }
        ∧ t.peek (s.stackTop 1) = some imm ∧ SameBytesOutside [s.stackTop 1] s t)
      ∧ (∀ rs, ∃ v t, s.regDelivers rs v ∧ exec (.pushR rs) s = .next t
        ∧ t = { s with sp := s.sp - 1, mem := t.mem, mar := t.mar, draws := t.draws }
        ∧ t.peek (s.stackTop 1) = some v ∧ SameBytesOutside [s.stackTop 1] s t)
      ∧ ∀ adr, s.readable adr → ∃ v t, s.delivers adr v ∧ exec (.pushA adr) s = .next t
        ∧ t = { s with sp := s.sp - 1, mem := t.mem, mar := t.mar, draws := t.draws }
        ∧ t.peek (s.stackTop 1) = some v ∧ SameBytesOutside [s.stackTop 1] s t

/-- POP to a register or to memory completes: SP has moved when the destination is written, so POP SP ends with the popped byte
(rules R199, R200). -/
def Obligations.PopCompletes : Prop :=
  ∀ s : State, s.readable (s.stackTop 0) →
    (∀ rd, ∃ v m d, s.delivers (s.stackTop 0) v
        ∧ exec (.popR rd) s = .next { ({ s with sp := s.sp + 1 } : State).withReg rd v with mar := m, draws := d })
      ∧ ∀ adr, s.writable adr → ∃ v t, s.delivers (s.stackTop 0) v ∧ exec (.popA adr) s = .next t
        ∧ t = { s with sp := s.sp + 1, mem := t.mem, mar := t.mar, draws := t.draws }
        ∧ t.peek adr = some v ∧ SameBytesOutside [adr] s t

/-- PUSH SR saves the five flags and POP SR restores them, whatever happened to SR in between (rule R197). -/
def Obligations.PopSrRestoresPushedFlags : Prop :=
  ∀ (s : State) (between : Status), s.writable (s.stackTop 1) →
    ∃ t u, exec (.pushR .sr) s = .next t ∧ exec (.popR .sr) { t with sr := between } = .next u ∧ u.sr = s.sr ∧ u.sp = s.sp

/-- CALL completes: the address of the next instruction is pushed and PC is the target (rule R194). -/
def Obligations.CallCompletes : Prop :=
  ∀ (s : State) (adr : Addr), s.writable (s.stackTop 1) → s.writable (s.stackTop 2) →
    ∃ t, exec (.callA adr) s = .next t ∧ CalledTo s t adr

/-- RET and IRET complete: PC is popped and nothing else is restored (rules R195, R212, R237). -/
def Obligations.ReturnsComplete : Prop :=
  ∀ s : State, s.readable (s.stackTop 0) → s.readable (stackAddr s.cfg.stackPage (s.sp + 1)) →
    (∃ t, exec .ret s = .next t ∧ ReturnedFrom s t) ∧ ∃ t, exec .iret s = .next t ∧ ReturnedFrom s t

/-- RET after CALL, and IRET after INT, come back to the next instruction with SP as it was and SR untouched (rules R195,
R237); the shapes of `INT_TARGET` are log 5. -/
def Obligations.ReturnUndoesCall : Prop :=
  ∀ s : State, s.writable (s.stackTop 1) → s.writable (s.stackTop 2) →
    (∀ adr, ∃ t u, exec (.callA adr) s = .next t ∧ exec .ret t = .next u
        ∧ u.pc = s.pc ∧ u.sp = s.sp ∧ u.sr = s.sr)
      ∧ ∀ n, s.hasTarget n → ∃ t u, exec (.intI n) s = .next t ∧ exec .iret t = .next u
        ∧ u.pc = s.pc ∧ u.sp = s.sp ∧ u.sr = s.sr

/-! ### Interrupt and halt (`44_interrupt.md`, `45_halt.md`) -/

/-- INT completes on a platform with an `INT_TARGET`, whatever IE is: the return address is pushed, PC is `INT_TARGET(n, Mem)`,
and SR is neither saved nor changed (rules R210, R211, R215, R236). The shapes of `INT_TARGET` are the model's choice (log 5), and
so is that it is evaluated in the memory after the two pushes (log 20, deduced). -/
def Obligations.IntCompletes : Prop :=
  ∀ s : State, s.writable (s.stackTop 1) → s.writable (s.stackTop 2) →
    (∀ n, s.hasTarget n → ∃ t, exec (.intI n) s = .next t ∧ CalledTo s t t.pc ∧ t.targetIs n t.pc)
      ∧ ∀ rs, (∀ n, s.regDelivers rs n → s.hasTarget n) →
        ∃ n t, s.regDelivers rs n ∧ exec (.intR rs) s = .next t ∧ CalledTo s t t.pc ∧ t.targetIs n t.pc

/-- A platform without `INT_TARGET` has no INT: it stops before anything is pushed (rules R215, R235); that the stop is a refusal is
log 16. -/
def Obligations.IntWithoutTargetIsRefused : Prop :=
  ∀ s : State, s.cfg.intTarget = .absent →
    (∀ n, exec (.intI n) s = .refused .intTargetOpen) ∧ ∀ rs, exec (.intR rs) s = .refused .intTargetOpen

/-- CLI clears IE and SEI sets it; each is one byte, `OPCODE_MAP`'s, and changes nothing else (rules R213, R214). -/
def Obligations.CliSeiComplete : Prop :=
  ∀ s : State,
    (encode s.cfg .cli = (lookupOpcode .cli s.cfg.opcodeMap).map (fun op => [op])
        ∧ exec .cli s = .next { s with sr := { s.sr with ie := false } })
      ∧ encode s.cfg .sei = (lookupOpcode .sei s.cfg.opcodeMap).map (fun op => [op])
        ∧ exec .sei s = .next { s with sr := { s.sr with ie := true } }

/-- HLT completes: the halt latch is set and nothing else changes; a running machine at a byte 0xFF halts with PC one past it
and stays so (rules R39, R220; that a halted machine's step is to itself is the model's choice, log 13). -/
def Obligations.HltCompletes : Prop :=
  ∀ s : State, exec .hlt s = .next { s with halted := true }
    ∧ (s.halted = false → s.readable s.pc → s.peek s.pc = some 0xFF →
      ∃ t, step s = .next t ∧ t = { s with halted := true, pc := s.pc + 1, mar := t.mar } ∧ step t = .next t)

/-- The launch of a run: PC at `RESET_PC`, not halted, memory the launch image (rules R44, R246, R260, R261). The registers'
zeros and the default parameters of `State.reset` are the model's choice (log 2 to 8). -/
def Obligations.LaunchState : Prop :=
  (∀ (c : Config) (image : Memory),
      (State.launch c image).pc = c.resetPc ∧ (State.launch c image).halted = false
        ∧ (State.launch c image).mem = image ∧ (State.launch c image).cfg = c)
    ∧ State.reset = State.launch Config.default [] ∧ State.reset.pc = 0
    ∧ State.reset.a = 0 ∧ State.reset.b = 0 ∧ State.reset.x = 0 ∧ State.reset.y = 0 ∧ State.reset.sp = 0
    ∧ State.reset.sr = { ie := false, of := false, sf := false, zf := false, cf := false }

/-! ### The data accesses that `MEM_MAP` stops (rules R69, R76, R77) -/

/-- The loads of PUSH, POP, RET, IRET and of INT's table stop by name at an absent or a device address, each in its turn
(rules R69, R76, R231; which stop is a refusal is log 16; that the table is read after the pushes is log 20, its shape log 5). -/
def Obligations.LoadsStopByMemoryMap : Prop :=
  ∀ s : State,
    (∀ adr, StopsRead s adr (exec (.pushA adr) s))
      ∧ (∀ i : Instr, ((∃ rd, i = .popR rd) ∨ (∃ adr, i = .popA adr) ∨ i = .ret ∨ i = .iret) →
        StopsRead s (s.stackTop 0) (exec i s))
      ∧ (s.readable (s.stackTop 0) → ∀ i : Instr, (i = .ret ∨ i = .iret) →
        StopsRead s (stackAddr s.cfg.stackPage (s.sp + 1)) (exec i s))
      ∧ ∀ base, s.cfg.intTarget = .table base → s.writable (s.stackTop 1) → s.writable (s.stackTop 2) →
        (∀ n, StopsTableRead s base n (exec (.intI n) s))
          ∧ ∀ rs, ∃ n, s.regDelivers rs n ∧ StopsTableRead s base n (exec (.intR rs) s)

/-- The stores of the ALU operations, POP, PUSH, CALL and INT stop by name at an absent, rom or device address, each in its turn
(rules R69, R76, R231; which stop is a refusal is log 16). INT without `INT_TARGET` stops before any of its stores (rule R235). -/
def Obligations.StoresStopByMemoryMap : Prop :=
  ∀ s : State,
    (∀ adr, ∀ i ∈ [Instr.addA, .subA, .adcA, .lshA, .rshA, .orA, .andA, .xorA], StopsWrite s adr (exec (i adr) s))
      ∧ (s.readable (s.stackTop 0) → ∀ adr, StopsWrite s adr (exec (.popA adr) s))
      ∧ (∀ imm, StopsWrite s (s.stackTop 1) (exec (.pushI imm) s))
      ∧ (∀ rs, StopsWrite s (s.stackTop 1) (exec (.pushR rs) s))
      ∧ (∀ adr, s.readable adr → StopsWrite s (s.stackTop 1) (exec (.pushA adr) s))
      ∧ ∀ i : Instr, ((∃ adr, i = .callA adr)
          ∨ (s.cfg.intTarget ≠ .absent ∧ ((∃ n, i = .intI n) ∨ ∃ rs, i = .intR rs))) →
        StopsWrite s (s.stackTop 1) (exec i s)
          ∧ (s.writable (s.stackTop 1) → StopsWrite s (s.stackTop 2) (exec i s))
end

