-- ==== Sys2Proof/Laws/State.lean ====
section
/-! SUPPORT. The small lemmas of the state's updates: one per field, so that no proof unfolds an update. -/

namespace Sys2Proof.Machine

section SetPc
variable (adr : Addr) (s : State)

@[simp] theorem setPc_a : (setPc adr s).a = s.a := rfl
@[simp] theorem setPc_b : (setPc adr s).b = s.b := rfl
@[simp] theorem setPc_x : (setPc adr s).x = s.x := rfl
@[simp] theorem setPc_y : (setPc adr s).y = s.y := rfl
@[simp] theorem setPc_sp : (setPc adr s).sp = s.sp := rfl
@[simp] theorem setPc_sr : (setPc adr s).sr = s.sr := rfl
@[simp] theorem setPc_pc : (setPc adr s).pc = adr := rfl
@[simp] theorem setPc_mar : (setPc adr s).mar = s.mar := rfl
@[simp] theorem setPc_halted : (setPc adr s).halted = s.halted := rfl
@[simp] theorem setPc_mem : (setPc adr s).mem = s.mem := rfl
@[simp] theorem setPc_cfg : (setPc adr s).cfg = s.cfg := rfl
@[simp] theorem setPc_draws : (setPc adr s).draws = s.draws := rfl

end SetPc

section WriteReg
variable (v : Byte) (s : State)

@[simp] theorem writeReg_to_a : writeReg .a v s = { s with a := v } := rfl
@[simp] theorem writeReg_to_b : writeReg .b v s = { s with b := v } := rfl
@[simp] theorem writeReg_to_x : writeReg .x v s = { s with x := v } := rfl
@[simp] theorem writeReg_to_y : writeReg .y v s = { s with y := v } := rfl
@[simp] theorem writeReg_to_sp : writeReg .sp v s = { s with sp := v } := rfl
@[simp] theorem writeReg_to_sr : writeReg .sr v s = { s with sr := Status.ofByte v } := rfl

variable (r : Reg)

@[simp] theorem writeReg_pc : (writeReg r v s).pc = s.pc := by cases r <;> rfl
@[simp] theorem writeReg_mar : (writeReg r v s).mar = s.mar := by cases r <;> rfl
@[simp] theorem writeReg_halted : (writeReg r v s).halted = s.halted := by cases r <;> rfl
@[simp] theorem writeReg_mem : (writeReg r v s).mem = s.mem := by cases r <;> rfl
@[simp] theorem writeReg_cfg : (writeReg r v s).cfg = s.cfg := by cases r <;> rfl
@[simp] theorem writeReg_draws : (writeReg r v s).draws = s.draws := by cases r <;> rfl

end WriteReg

section Launch
variable (c : Config) (image : Memory)

@[simp] theorem launch_pc : (State.launch c image).pc = c.resetPc := rfl
@[simp] theorem launch_halted : (State.launch c image).halted = false := rfl
@[simp] theorem launch_mem : (State.launch c image).mem = image := rfl
@[simp] theorem launch_cfg : (State.launch c image).cfg = c := rfl

end Launch

section StatusByte
variable (v : Byte)

@[simp] theorem ofByte_ie : (Status.ofByte v).ie = v.getLsbD 7 := rfl
@[simp] theorem ofByte_of : (Status.ofByte v).of = v.getLsbD 3 := rfl
@[simp] theorem ofByte_sf : (Status.ofByte v).sf = v.getLsbD 2 := rfl
@[simp] theorem ofByte_zf : (Status.ofByte v).zf = v.getLsbD 1 := rfl
@[simp] theorem ofByte_cf : (Status.ofByte v).cf = v.getLsbD 0 := rfl

/-- Writing back what a read of SR delivered restores SR, whatever the three free bits were (rules R32, R33). -/
@[simp] theorem ofByte_toByte (st : Status) (free : BitVec 3) : Status.ofByte (st.toByte free) = st := by
  obtain ⟨ie, of, sf, zf, cf⟩ := st
  revert ie of sf zf cf free
  decide

end StatusByte

end Sys2Proof.Machine
end

