-- ==== Sys2Proof/Laws/Memory.lean ====
section
/-! SUPPORT. Memory: a read after a write, and the canonical form that every memory operation keeps. -/

namespace Sys2Proof.Machine

theorem Memory.read_write_same (m : Memory) (adr : Addr) (v : Byte) : (m.write adr v).read adr = some v := by
  induction m with
  | nil => simp [Memory.write, Memory.read]
  | cons c rest ih =>
    unfold Memory.write
    split
    · rename_i h
      simp [Memory.read, ih, Nat.ne_of_lt h]
    · split <;> simp [Memory.read]

theorem Memory.read_write_other (m : Memory) {adr other : Addr} (v : Byte) (h : other ≠ adr) :
    (m.write adr v).read other = m.read other := by
  have hne : adr.toNat ≠ other.toNat := fun e => h (BitVec.eq_of_toNat_eq e.symm)
  induction m with
  | nil => simp [Memory.write, Memory.read, hne]
  | cons c rest ih =>
    unfold Memory.write
    split
    · simp [Memory.read, ih]
    · split
      · rename_i hc
        simp [Memory.read, hne, hc]
      · simp [Memory.read, hne]

theorem Memory.read_write (m : Memory) (adr other : Addr) (v : Byte) :
    (m.write adr v).read other = if other = adr then some v else m.read other := by
  split
  · rename_i h
    rw [h, Memory.read_write_same]
  · rename_i h
    exact Memory.read_write_other m v h

theorem Memory.risesFrom_write (m : Memory) (adr : Addr) (v : Byte) (lo : Nat) (hlo : lo ≤ adr.toNat)
    (h : Memory.risesFrom lo m = true) : Memory.risesFrom lo (m.write adr v) = true := by
  have hlt : adr.toNat < 65536 := adr.isLt
  induction m generalizing lo with
  | nil => simp [Memory.write, Memory.risesFrom, hlo, hlt]
  | cons c rest ih =>
    simp only [Memory.risesFrom, Bool.and_eq_true, decide_eq_true_eq] at h
    unfold Memory.write
    split
    · rename_i hc
      simp [Memory.risesFrom, h.1.1, h.1.2, ih (c.1 + 1) hc h.2]
    · split
      · rename_i hc
        rw [hc] at h
        simp [Memory.risesFrom, hlo, hlt, h.2]
      · rename_i hge hne
        have hgt : adr.toNat + 1 ≤ c.1 := by omega
        simp [Memory.risesFrom, hlo, hlt, h.2, h.1.2, hgt]

/-- A write keeps the canonical form. -/
theorem Memory.wf_write {m : Memory} (h : m.wf = true) (adr : Addr) (v : Byte) : (m.write adr v).wf = true :=
  Memory.risesFrom_write m adr v 0 (Nat.zero_le _) h

theorem reset_mem_wf : State.reset.mem.wf = true := rfl

end Sys2Proof.Machine
end

