-- ==== Sys2Proof/Laws/Ops.lean ====
section
/-! SUPPORT. What each shared operation can do, said once: if it answers a next state, these are the state and the value; and
when it answers one. Later proofs cite these lemmas and do not unfold the operations. -/

namespace Sys2Proof.Machine

@[simp] theorem andThen_next {α β : Type} (v : α) (k : α → Res β) : andThen (.next v) k = k v := rfl
@[simp] theorem andThen_fault {α β : Type} (e : Fault) (k : α → Res β) : andThen (.fault e) k = .fault e := rfl
@[simp] theorem andThen_refused {α β : Type} (e : Refusal) (k : α → Res β) : andThen (.refused e) k = .refused e := rfl

theorem andThen_eq_next {α β : Type} {o : Res α} {k : α → Res β} {w : β} :
    andThen o k = .next w ↔ ∃ v, o = .next v ∧ k v = .next w := by
  cases o <;> simp

/-! ### Reads -/

/-- A read of one byte changes MAR and the counter of free values, and delivers the byte memory holds where it holds one. -/
theorem loadByte_spec (adr : Addr) (s : State) :
    (∃ d, (loadByte adr s).2 = { s with mar := adr, draws := d })
      ∧ ∀ w, s.mem.read adr = some w → (loadByte adr s).1 = w := by
  unfold loadByte
  split
  · exact ⟨⟨s.draws, rfl⟩, by simp_all⟩
  · exact ⟨⟨s.draws + 1, rfl⟩, by simp_all⟩

theorem memRead_eq_next {adr : Addr} {s t : State} {v : Byte} :
    memRead adr s = .next (v, t) ↔
      (kindAt s.cfg.memMap adr = .ram ∨ kindAt s.cfg.memMap adr = .rom) ∧ loadByte adr s = (v, t) := by
  unfold memRead
  split <;> simp_all

/-- What a read that has a meaning does (rules R64, R69). -/
theorem memRead_next {adr : Addr} {s t : State} {v : Byte} (h : memRead adr s = .next (v, t)) :
    (kindAt s.cfg.memMap adr = .ram ∨ kindAt s.cfg.memMap adr = .rom)
      ∧ (∃ d, t = { s with mar := adr, draws := d }) ∧ ∀ w, s.mem.read adr = some w → v = w := by
  obtain ⟨hk, hl⟩ := memRead_eq_next.1 h
  have hs := loadByte_spec adr s
  rw [hl] at hs
  exact ⟨hk, hs.1, hs.2⟩

theorem memRead_completes {adr : Addr} {s : State}
    (h : kindAt s.cfg.memMap adr = .ram ∨ kindAt s.cfg.memMap adr = .rom) : ∃ v t, memRead adr s = .next (v, t) :=
  ⟨_, _, memRead_eq_next.2 ⟨h, rfl⟩⟩

/-- A read of a byte that memory holds. -/
theorem memRead_of_listed {adr : Addr} {s : State} {v : Byte}
    (h : kindAt s.cfg.memMap adr = .ram ∨ kindAt s.cfg.memMap adr = .rom) (hv : s.mem.read adr = some v) :
    memRead adr s = .next (v, { s with mar := adr }) := by
  refine memRead_eq_next.2 ⟨h, ?_⟩
  simp [loadByte, hv]

/-- When a read stops, and with what (rules R69, R231). -/
theorem memRead_stops (adr : Addr) (s : State) :
    (kindAt s.cfg.memMap adr = .absent → memRead adr s = .fault (.absentMemory adr))
      ∧ (kindAt s.cfg.memMap adr = .device → memRead adr s = .refused (.deviceAccess adr)) := by
  constructor <;> intro h <;> simp [memRead, h]

theorem memRead16_next {adr : Addr} {s t : State} {v : Addr} (h : memRead16 adr s = .next (v, t)) :
    ∃ lo hi d, v = joinBytes lo hi ∧ t = { s with mar := adr + 1, draws := d }
      ∧ (∀ w, s.mem.read adr = some w → lo = w) ∧ ∀ w, s.mem.read (adr + 1) = some w → hi = w := by
  obtain ⟨⟨lo, s1⟩, h1, h⟩ := andThen_eq_next.1 h
  obtain ⟨⟨hi, s2⟩, h2, h⟩ := andThen_eq_next.1 h
  cases h
  obtain ⟨-, ⟨d1, rfl⟩, hlo⟩ := memRead_next h1
  obtain ⟨-, ⟨d2, rfl⟩, hhi⟩ := memRead_next h2
  exact ⟨lo, hi, d2, rfl, rfl, hlo, hhi⟩

/-! ### Writes -/

/-- What a write does, and that it has a meaning on ram alone (rules R64, R69). -/
theorem memWrite_eq_next {adr : Addr} {v : Byte} {s t : State} :
    memWrite adr v s = .next t ↔
      kindAt s.cfg.memMap adr = .ram ∧ t = { s with mem := s.mem.write adr v, mar := adr } := by
  unfold memWrite
  split
  · rename_i hk
    simp [hk, eq_comm]
  all_goals rename_i hk; simp [hk]

/-- When a write stops, and with what (rules R69, R231). -/
theorem memWrite_stops (adr : Addr) (v : Byte) (s : State) :
    (kindAt s.cfg.memMap adr = .absent → memWrite adr v s = .fault (.absentMemory adr))
      ∧ (kindAt s.cfg.memMap adr = .device → memWrite adr v s = .refused (.deviceAccess adr))
      ∧ (kindAt s.cfg.memMap adr = .rom → memWrite adr v s = .fault (.writeToRom adr)) := by
  refine ⟨?_, ?_, ?_⟩ <;> intro h <;> simp [memWrite, h]

/-! ### Registers -/

/-- A read of a register changes nothing but the counter of free values, and that only for SR. -/
theorem readReg_state (r : Reg) (s : State) : ∃ d, (readReg r s).2 = { s with draws := d } := by
  cases r <;> exact ⟨_, rfl⟩

/-! ### The stack -/

theorem push8_eq_next {v : Byte} {s t : State} :
    push8 v s = .next t ↔
      kindAt s.cfg.memMap (stackAddr s.cfg.stackPage (s.sp - 1)) = .ram
        ∧ t = { s with
            sp := s.sp - 1
            mem := s.mem.write (stackAddr s.cfg.stackPage (s.sp - 1)) v
            mar := stackAddr s.cfg.stackPage (s.sp - 1) } := by
  unfold push8
  rw [memWrite_eq_next]

theorem pop8_next {s t : State} {v : Byte} (h : pop8 s = .next (v, t)) :
    (kindAt s.cfg.memMap (stackAddr s.cfg.stackPage s.sp) = .ram
        ∨ kindAt s.cfg.memMap (stackAddr s.cfg.stackPage s.sp) = .rom)
      ∧ (∃ d, t = { s with sp := s.sp + 1, mar := stackAddr s.cfg.stackPage s.sp, draws := d })
      ∧ ∀ w, s.mem.read (stackAddr s.cfg.stackPage s.sp) = some w → v = w := by
  obtain ⟨⟨u, s1⟩, h1, h⟩ := andThen_eq_next.1 h
  cases h
  obtain ⟨hk, ⟨d, rfl⟩, hv⟩ := memRead_next h1
  exact ⟨hk, ⟨d, rfl⟩, hv⟩

theorem pop8_completes {s : State}
    (h : kindAt s.cfg.memMap (stackAddr s.cfg.stackPage s.sp) = .ram
      ∨ kindAt s.cfg.memMap (stackAddr s.cfg.stackPage s.sp) = .rom) : ∃ v t, pop8 s = .next (v, t) := by
  obtain ⟨v, t, e⟩ := memRead_completes h
  exact ⟨v, { t with sp := t.sp + 1 }, by simp [pop8, e]⟩

theorem byte_sub_one_sub_one (v : Byte) : v - 1 - 1 = v - 2 := by rw [BitVec.sub_sub]; rfl

theorem byte_add_one_add_one (v : Byte) : v + 1 + 1 = v + 2 := by rw [BitVec.add_assoc]; rfl

/-- The two stack bytes of a 16-bit push are never the same byte, whatever SP is (rule R192). -/
theorem stackAddr_inj {page u v : Byte} (h : stackAddr page u = stackAddr page v) : u = v := by
  refine BitVec.eq_of_getLsbD_eq fun k hk => ?_
  have low : ∀ w : Byte, (stackAddr page w).getLsbD k = w.getLsbD k := fun w =>
    (BitVec.getLsbD_append (x := page) (y := w)).trans (by simp [hk])
  rw [← low u, ← low v, h]

theorem push16_next {v : Addr} {s t : State} (h : push16 v s = .next t) :
    kindAt s.cfg.memMap (stackAddr s.cfg.stackPage (s.sp - 1)) = .ram
      ∧ kindAt s.cfg.memMap (stackAddr s.cfg.stackPage (s.sp - 2)) = .ram
      ∧ t = { s with
          sp := s.sp - 2
          mem := (s.mem.write (stackAddr s.cfg.stackPage (s.sp - 1)) (highByte v)).write
            (stackAddr s.cfg.stackPage (s.sp - 2)) (lowByte v)
          mar := stackAddr s.cfg.stackPage (s.sp - 2) } := by
  obtain ⟨s1, h1, h2⟩ := andThen_eq_next.1 h
  obtain ⟨k1, rfl⟩ := push8_eq_next.1 h1
  obtain ⟨k2, rfl⟩ := push8_eq_next.1 h2
  simp only [byte_sub_one_sub_one] at k2 ⊢
  exact ⟨k1, k2, trivial⟩

theorem push16_completes {v : Addr} {s : State}
    (h1 : kindAt s.cfg.memMap (stackAddr s.cfg.stackPage (s.sp - 1)) = .ram)
    (h2 : kindAt s.cfg.memMap (stackAddr s.cfg.stackPage (s.sp - 2)) = .ram) : ∃ t, push16 v s = .next t := by
  rw [← byte_sub_one_sub_one] at h2
  exact ⟨_, andThen_eq_next.2 ⟨_, push8_eq_next.2 ⟨h1, rfl⟩, push8_eq_next.2 ⟨h2, rfl⟩⟩⟩

theorem pop16_completes {s : State}
    (h1 : kindAt s.cfg.memMap (stackAddr s.cfg.stackPage s.sp) = .ram
      ∨ kindAt s.cfg.memMap (stackAddr s.cfg.stackPage s.sp) = .rom)
    (h2 : kindAt s.cfg.memMap (stackAddr s.cfg.stackPage (s.sp + 1)) = .ram
      ∨ kindAt s.cfg.memMap (stackAddr s.cfg.stackPage (s.sp + 1)) = .rom) : ∃ v t, pop16 s = .next (v, t) := by
  obtain ⟨lo, s1, e1⟩ := pop8_completes h1
  obtain ⟨-, ⟨d, rfl⟩, -⟩ := pop8_next e1
  obtain ⟨hi, s2, e2⟩ := pop8_completes (s := { s with
    sp := s.sp + 1, mar := stackAddr s.cfg.stackPage s.sp, draws := d }) h2
  exact ⟨joinBytes lo hi, s2, by simp only [pop16, e1, andThen_next, e2]⟩

theorem pop16_next {s t : State} {v : Addr} (h : pop16 s = .next (v, t)) :
    ∃ lo hi d, v = joinBytes lo hi
      ∧ t = { s with sp := s.sp + 2, mar := stackAddr s.cfg.stackPage (s.sp + 1), draws := d }
      ∧ (∀ w, s.mem.read (stackAddr s.cfg.stackPage s.sp) = some w → lo = w)
      ∧ ∀ w, s.mem.read (stackAddr s.cfg.stackPage (s.sp + 1)) = some w → hi = w := by
  obtain ⟨⟨lo, s1⟩, h1, h⟩ := andThen_eq_next.1 h
  obtain ⟨⟨hi, s2⟩, h2, h⟩ := andThen_eq_next.1 h
  cases h
  obtain ⟨-, ⟨d1, rfl⟩, hlo⟩ := pop8_next h1
  obtain ⟨-, ⟨d2, rfl⟩, hhi⟩ := pop8_next h2
  exact ⟨lo, hi, d2, rfl, by simp only [byte_add_one_add_one], hlo, hhi⟩

/-! ### Control transfers -/

theorem callTo_next {adr : Addr} {s t : State} (h : callTo adr s = .next t) :
    ∃ s1, push16 s.pc s = .next s1 ∧ t = setPc adr s1 := by
  obtain ⟨s1, h1, h⟩ := andThen_eq_next.1 h
  cases h
  exact ⟨s1, h1, rfl⟩

theorem returnFromStack_next {s t : State} (h : returnFromStack s = .next t) :
    ∃ v s1, pop16 s = .next (v, s1) ∧ t = setPc v s1 := by
  obtain ⟨⟨v, s1⟩, h1, h⟩ := andThen_eq_next.1 h
  cases h
  exact ⟨v, s1, h1, rfl⟩

theorem intTarget_next {n : Byte} {s t : State} {v : Addr} (h : intTarget n s = .next (v, t)) :
    ∃ m d, t = { s with mar := m, draws := d } := by
  unfold intTarget at h
  split at h
  · cases h
  · cases h
    exact ⟨_, _, rfl⟩
  · obtain ⟨_, _, d, -, e, -, -⟩ := memRead16_next h
    exact ⟨_, d, e⟩
  · cases h
    exact ⟨_, _, rfl⟩

/-- What the entry into a handler does (rules R215, R236). -/
theorem intCall_next {n : Byte} {s t : State} (h : intCall n s = .next t) :
    s.cfg.intTarget ≠ .absent
      ∧ ∃ s1 v s2, push16 s.pc s = .next s1 ∧ intTarget n s1 = .next (v, s2) ∧ t = setPc v s2 := by
  unfold intCall at h
  split at h
  · cases h
  · rename_i hne
    obtain ⟨s1, h1, h⟩ := andThen_eq_next.1 h
    obtain ⟨⟨v, s2⟩, h2, h⟩ := andThen_eq_next.1 h
    cases h
    exact ⟨hne, s1, v, s2, h1, h2, rfl⟩

theorem intReturn_next {s t : State} (h : intReturn s = .next t) :
    ∃ v s1, pop16 s = .next (v, s1) ∧ t = setPc v s1 := returnFromStack_next h

/-! ### Operands -/

/-- A source operand changes MAR and the counter of free values, nothing else. -/
theorem readSource_next {src : Source} {s t : State} {v : Byte} (h : readSource src s = .next (v, t)) :
    ∃ m d, t = { s with mar := m, draws := d } := by
  cases src with
  | reg r =>
    obtain ⟨d, e⟩ := readReg_state r s
    have ht : (readReg r s).2 = t := by
      have := Host.Outcome.next.inj h
      rw [this]
    exact ⟨s.mar, d, ht ▸ e⟩
  | imm w => cases h; exact ⟨_, _, rfl⟩
  | mem adr => obtain ⟨-, ⟨d, e⟩, -⟩ := memRead_next h; exact ⟨adr, d, e⟩

/-- A destination operand is a register written, or one byte of ram. -/
theorem writeDest_next {dest : Dest} {v : Byte} {s t : State} (h : writeDest dest v s = .next t) :
    (∃ r, dest = .reg r ∧ t = writeReg r v s)
      ∨ ∃ adr, dest = .mem adr ∧ kindAt s.cfg.memMap adr = .ram
          ∧ t = { s with mem := s.mem.write adr v, mar := adr } := by
  cases dest with
  | reg r => exact .inl ⟨r, rfl, by simpa [writeDest, eq_comm] using h⟩
  | mem adr => exact .inr ⟨adr, rfl, memWrite_eq_next.1 h⟩

theorem move_next {dest : Dest} {src : Source} {s t : State} (h : move dest src s = .next t) :
    ∃ v s1, readSource src s = .next (v, s1) ∧ writeDest dest v s1 = .next t := by
  obtain ⟨⟨v, s1⟩, h1, h2⟩ := andThen_eq_next.1 h
  exact ⟨v, s1, h1, h2⟩

theorem aluWrite_next {dest : Dest} {res : Byte} {flags : Status} {s t : State} (h : aluWrite dest res flags s = .next t) :
    dest ≠ .reg .sr ∧ writeDest dest res { s with sr := flags } = .next t := by
  unfold aluWrite at h
  split at h
  · cases h
  · rename_i hne
    exact ⟨hne, h⟩

theorem shiftWrite_next {dest : Dest} {res : Byte} {s t : State} (h : shiftWrite dest res s = .next t) :
    dest ≠ .reg .sr
      ∧ writeDest dest res { s with sr := flagsShift res s.draws s.sr, draws := s.draws + 1 } = .next t :=
  aluWrite_next h

theorem pushSource_next {src : Source} {s t : State} (h : pushSource src s = .next t) :
    ∃ v s1, readSource src s = .next (v, s1) ∧ push8 v s1 = .next t := by
  obtain ⟨⟨v, s1⟩, h1, h2⟩ := andThen_eq_next.1 h
  exact ⟨v, s1, h1, h2⟩

theorem popDest_next {dest : Dest} {s t : State} (h : popDest dest s = .next t) :
    ∃ v s1, pop8 s = .next (v, s1) ∧ writeDest dest v s1 = .next t := by
  obtain ⟨⟨v, s1⟩, h1, h2⟩ := andThen_eq_next.1 h
  exact ⟨v, s1, h1, h2⟩

/-- A jump always completes, and changes PC alone (rule R140). -/
theorem jumpIf_eq (cond : Bool) (adr : Addr) (s : State) :
    jumpIf cond adr s = .next { s with pc := if cond then adr else s.pc } := by
  cases cond <;> rfl

end Sys2Proof.Machine
end

