-- ==== Sys2Proof/Laws/PerInstr.lean ====
section
/-! SUPPORT. A family of statements made once for each constructor of `Instr`. -/

/-- The operand bytes of an instruction and its opcode byte make up the length of its form, under every platform
(`30_encoding.md` rules R92, R101). -/
def Sys2Proof.Laws.EncodedLength.Statement (i : Sys2Proof.Instr) : Prop :=
  ∀ c : Sys2Proof.Config, (Sys2Proof.operandBytes c i).length + 1 = i.form.length

theorem Sys2Proof.Laws.EncodedLength.movRR (rd : Sys2Proof.Reg) (rs : Sys2Proof.Reg) : Statement (.movRR rd rs) := fun _ => rfl
theorem Sys2Proof.Laws.EncodedLength.movRI (rd : Sys2Proof.Reg) (imm : Sys2Proof.Byte) : Statement (.movRI rd imm) := fun _ => rfl
theorem Sys2Proof.Laws.EncodedLength.movRA (rd : Sys2Proof.Reg) (adr : Sys2Proof.Addr) : Statement (.movRA rd adr) := fun _ => rfl
theorem Sys2Proof.Laws.EncodedLength.movAR (adr : Sys2Proof.Addr) (rs : Sys2Proof.Reg) : Statement (.movAR adr rs) := fun _ => rfl
theorem Sys2Proof.Laws.EncodedLength.jmp (adr : Sys2Proof.Addr) : Statement (.jmp adr) := fun _ => rfl
theorem Sys2Proof.Laws.EncodedLength.jo (adr : Sys2Proof.Addr) : Statement (.jo adr) := fun _ => rfl
theorem Sys2Proof.Laws.EncodedLength.jno (adr : Sys2Proof.Addr) : Statement (.jno adr) := fun _ => rfl
theorem Sys2Proof.Laws.EncodedLength.js (adr : Sys2Proof.Addr) : Statement (.js adr) := fun _ => rfl
theorem Sys2Proof.Laws.EncodedLength.jns (adr : Sys2Proof.Addr) : Statement (.jns adr) := fun _ => rfl
theorem Sys2Proof.Laws.EncodedLength.je (adr : Sys2Proof.Addr) : Statement (.je adr) := fun _ => rfl
theorem Sys2Proof.Laws.EncodedLength.jne (adr : Sys2Proof.Addr) : Statement (.jne adr) := fun _ => rfl
theorem Sys2Proof.Laws.EncodedLength.jb (adr : Sys2Proof.Addr) : Statement (.jb adr) := fun _ => rfl
theorem Sys2Proof.Laws.EncodedLength.jnb (adr : Sys2Proof.Addr) : Statement (.jnb adr) := fun _ => rfl
theorem Sys2Proof.Laws.EncodedLength.jbe (adr : Sys2Proof.Addr) : Statement (.jbe adr) := fun _ => rfl
theorem Sys2Proof.Laws.EncodedLength.ja (adr : Sys2Proof.Addr) : Statement (.ja adr) := fun _ => rfl
theorem Sys2Proof.Laws.EncodedLength.jl (adr : Sys2Proof.Addr) : Statement (.jl adr) := fun _ => rfl
theorem Sys2Proof.Laws.EncodedLength.jge (adr : Sys2Proof.Addr) : Statement (.jge adr) := fun _ => rfl
theorem Sys2Proof.Laws.EncodedLength.jle (adr : Sys2Proof.Addr) : Statement (.jle adr) := fun _ => rfl
theorem Sys2Proof.Laws.EncodedLength.jg (adr : Sys2Proof.Addr) : Statement (.jg adr) := fun _ => rfl
theorem Sys2Proof.Laws.EncodedLength.addR (rd : Sys2Proof.Reg) : Statement (.addR rd) := fun _ => rfl
theorem Sys2Proof.Laws.EncodedLength.addA (adr : Sys2Proof.Addr) : Statement (.addA adr) := fun _ => rfl
theorem Sys2Proof.Laws.EncodedLength.subR (rd : Sys2Proof.Reg) : Statement (.subR rd) := fun _ => rfl
theorem Sys2Proof.Laws.EncodedLength.subA (adr : Sys2Proof.Addr) : Statement (.subA adr) := fun _ => rfl
theorem Sys2Proof.Laws.EncodedLength.adcR (rd : Sys2Proof.Reg) : Statement (.adcR rd) := fun _ => rfl
theorem Sys2Proof.Laws.EncodedLength.adcA (adr : Sys2Proof.Addr) : Statement (.adcA adr) := fun _ => rfl
theorem Sys2Proof.Laws.EncodedLength.lshR (rd : Sys2Proof.Reg) : Statement (.lshR rd) := fun _ => rfl
theorem Sys2Proof.Laws.EncodedLength.lshA (adr : Sys2Proof.Addr) : Statement (.lshA adr) := fun _ => rfl
theorem Sys2Proof.Laws.EncodedLength.rshR (rd : Sys2Proof.Reg) : Statement (.rshR rd) := fun _ => rfl
theorem Sys2Proof.Laws.EncodedLength.rshA (adr : Sys2Proof.Addr) : Statement (.rshA adr) := fun _ => rfl
theorem Sys2Proof.Laws.EncodedLength.orR (rd : Sys2Proof.Reg) : Statement (.orR rd) := fun _ => rfl
theorem Sys2Proof.Laws.EncodedLength.orA (adr : Sys2Proof.Addr) : Statement (.orA adr) := fun _ => rfl
theorem Sys2Proof.Laws.EncodedLength.andR (rd : Sys2Proof.Reg) : Statement (.andR rd) := fun _ => rfl
theorem Sys2Proof.Laws.EncodedLength.andA (adr : Sys2Proof.Addr) : Statement (.andA adr) := fun _ => rfl
theorem Sys2Proof.Laws.EncodedLength.xorR (rd : Sys2Proof.Reg) : Statement (.xorR rd) := fun _ => rfl
theorem Sys2Proof.Laws.EncodedLength.xorA (adr : Sys2Proof.Addr) : Statement (.xorA adr) := fun _ => rfl
theorem Sys2Proof.Laws.EncodedLength.cmp : Statement .cmp := fun _ => rfl
theorem Sys2Proof.Laws.EncodedLength.inc : Statement .inc := fun _ => rfl
theorem Sys2Proof.Laws.EncodedLength.dec : Statement .dec := fun _ => rfl
theorem Sys2Proof.Laws.EncodedLength.callA (adr : Sys2Proof.Addr) : Statement (.callA adr) := fun _ => rfl
theorem Sys2Proof.Laws.EncodedLength.ret : Statement .ret := fun _ => rfl
theorem Sys2Proof.Laws.EncodedLength.pushI (imm : Sys2Proof.Byte) : Statement (.pushI imm) := fun _ => rfl
theorem Sys2Proof.Laws.EncodedLength.pushR (rs : Sys2Proof.Reg) : Statement (.pushR rs) := fun _ => rfl
theorem Sys2Proof.Laws.EncodedLength.pushA (adr : Sys2Proof.Addr) : Statement (.pushA adr) := fun _ => rfl
theorem Sys2Proof.Laws.EncodedLength.popR (rd : Sys2Proof.Reg) : Statement (.popR rd) := fun _ => rfl
theorem Sys2Proof.Laws.EncodedLength.popA (adr : Sys2Proof.Addr) : Statement (.popA adr) := fun _ => rfl
theorem Sys2Proof.Laws.EncodedLength.intR (rs : Sys2Proof.Reg) : Statement (.intR rs) := fun _ => rfl
theorem Sys2Proof.Laws.EncodedLength.intI (imm : Sys2Proof.Byte) : Statement (.intI imm) := fun _ => rfl
theorem Sys2Proof.Laws.EncodedLength.iret : Statement .iret := fun _ => rfl
theorem Sys2Proof.Laws.EncodedLength.cli : Statement .cli := fun _ => rfl
theorem Sys2Proof.Laws.EncodedLength.sei : Statement .sei := fun _ => rfl
theorem Sys2Proof.Laws.EncodedLength.hlt : Statement .hlt := fun _ => rfl
end

