-- ==== Sys2Proof/Laws/Step.lean ====
section
/-! SUPPORT. What the fetch and a step can do, said once. -/

namespace Sys2Proof.Machine

/-- A fetched byte moves PC on by one and changes MAR and the counter of free values, nothing else. -/
theorem fetchByte_next {s t : State} {v : Byte} (h : fetchByte s = .next (v, t)) :
    (∃ d, t = { s with pc := s.pc + 1, mar := s.pc, draws := d }) ∧ ∀ w, s.mem.read s.pc = some w → v = w := by
  obtain ⟨⟨u, s1⟩, h1, h⟩ := andThen_eq_next.1 h
  cases h
  obtain ⟨-, ⟨d, rfl⟩, hv⟩ := memRead_next h1
  exact ⟨⟨d, rfl⟩, hv⟩

/-- A fetched byte that memory holds. -/
theorem fetchByte_of_listed {s : State} {v : Byte}
    (h : kindAt s.cfg.memMap s.pc = .ram ∨ kindAt s.cfg.memMap s.pc = .rom) (hv : s.mem.read s.pc = some v) :
    fetchByte s = .next (v, { s with pc := s.pc + 1, mar := s.pc }) := by
  simp [fetchByte, memRead_of_listed h hv, setPc]

theorem fetchBytes_next {n : Nat} {s t : State} {vs : List Byte} (h : fetchBytes n s = .next (vs, t)) :
    vs.length = n ∧ ∃ m d, t = { s with pc := s.pc + BitVec.ofNat 16 n, mar := m, draws := d } := by
  induction n generalizing s vs with
  | zero =>
    cases h
    exact ⟨rfl, _, _, by rw [BitVec.add_zero]⟩
  | succ n ih =>
    obtain ⟨⟨v, s1⟩, h1, h⟩ := andThen_eq_next.1 h
    obtain ⟨⟨ws, s2⟩, h2, h⟩ := andThen_eq_next.1 h
    cases h
    obtain ⟨⟨d1, rfl⟩, -⟩ := fetchByte_next h1
    obtain ⟨hl, m, d, e⟩ := ih h2
    refine ⟨by simp [hl], m, d, ?_⟩
    dsimp only at e ⊢
    rw [e, BitVec.add_assoc, BitVec.add_comm 1, BitVec.ofNat_add n 1]
    rfl

/-- What a fetch does: PC moves past the form's bytes; MAR and the counter of free values change, nothing else. -/
theorem fetch_next {s t : State} {i : Instr} (h : fetch s = .next (i, t)) :
    ∃ (f : Form) (m : Addr) (d : Nat),
      t = { s with pc := s.pc + 1 + BitVec.ofNat 16 (f.length - 1), mar := m, draws := d } := by
  obtain ⟨⟨op, s1⟩, h1, h⟩ := andThen_eq_next.1 h
  obtain ⟨⟨d1, rfl⟩, -⟩ := fetchByte_next h1
  dsimp only at h
  split at h
  · rename_i f _
    obtain ⟨⟨vs, s2⟩, h2, h⟩ := andThen_eq_next.1 h
    obtain ⟨-, m, d, rfl⟩ := fetchBytes_next h2
    dsimp only at h
    split at h
    · cases h
      exact ⟨f, m, d, rfl⟩
    · cases h
  · cases h

/-- What a step can do: stay, on a halted machine, or fetch an instruction and execute it (rules R39, R100). -/
theorem step_next {s t : State} (h : step s = .next t) :
    (s.halted = true ∧ t = s) ∨ (s.halted = false ∧ ∃ i s1, fetch s = .next (i, s1) ∧ exec i s1 = .next t) := by
  unfold step at h
  split at h
  · rename_i hh
    exact .inl ⟨hh, by simpa [eq_comm] using h⟩
  · rename_i hh
    obtain ⟨⟨i, s1⟩, h1, h2⟩ := andThen_eq_next.1 h
    exact .inr ⟨by simpa using hh, i, s1, h1, h2⟩

/-- The loader's stores keep memory's canonical form. -/
theorem storeBytes_keeps_wf {m : Memory} (h : m.wf = true) (adr : Addr) (vs : List Byte) : (storeBytes m adr vs).wf = true := by
  induction vs generalizing m adr with
  | nil => exact h
  | cons v vs ih => exact ih (Memory.wf_write h adr v) (adr + 1)

end Sys2Proof.Machine
end

