-- ==== Sys2Proof/Laws/Run.lean ====
section
/-! SUPPORT. What a run can do in one more step, said once, and that more steps change nothing once it has ended or stopped. -/

namespace Sys2Proof.Machine

/-- A halted machine's run has ended, whatever the number of steps allowed. -/
theorem runFor_of_halted {s : State} (h : s.halted = true) (n : Nat) : runFor n s = .ended s := by
  cases n <;> simp [runFor, h]

@[simp] theorem runFor_zero_of_running {s : State} (h : s.halted = false) : runFor 0 s = .running s := by
  simp [runFor, h]

/-- A running machine's run goes on with the run of its next state. -/
theorem runFor_succ_of_next {s t : State} (h : s.halted = false) (hs : step s = .next t) (n : Nat) :
    runFor (n + 1) s = runFor n t := by
  simp [runFor, h, hs]

theorem runFor_succ_of_fault {s : State} {e : Fault} (h : s.halted = false) (hs : step s = .fault e) (n : Nat) :
    runFor (n + 1) s = .fault e := by
  simp [runFor, h, hs]

theorem runFor_succ_of_refused {s : State} {e : Refusal} (h : s.halted = false) (hs : step s = .refused e) (n : Nat) :
    runFor (n + 1) s = .refused e := by
  simp [runFor, h, hs]

/-- A run that is no longer running stands the same however many more steps are allowed. -/
theorem runFor_settled {n k : Nat} {s : State} {p : Progress} (h : runFor n s = p) (hp : ∀ t, p ≠ .running t) :
    runFor (n + k) s = p := by
  induction n generalizing s with
  | zero =>
    cases hs : s.halted
    · exact absurd (h.symm.trans (runFor_zero_of_running hs)) (hp s)
    · rw [runFor_of_halted hs, ← h, runFor_of_halted hs]
  | succ n ih =>
    rw [Nat.add_right_comm]
    cases hs : s.halted
    · cases ht : step s with
      | next t => rw [runFor_succ_of_next hs ht] at h ⊢; exact ih h
      | fault e => rw [runFor_succ_of_fault hs ht] at h ⊢; exact h
      | refused e => rw [runFor_succ_of_refused hs ht] at h ⊢; exact h
    · rw [runFor_of_halted hs] at h ⊢; exact h

/-- `State.launch` is one of the launches of its platform and image. -/
theorem launch_isLaunch (c : Config) (image : Memory) : IsLaunch c image (State.launch c image) := ⟨rfl, rfl, rfl, rfl⟩

end Sys2Proof.Machine
end

