-- ==== Sys2Proof/Tests/Slice0.lean ====
section
/-! SUPPORT. The model's own tests: the well-formedness checks on ill-formed terms, one hand-written word for every constructor,
single steps on the vectors of `95_test_vectors.md`, and for every obligation with hypotheses a concrete case that meets them. -/

namespace Sys2Proof.Tests

open Sys2Proof.Machine

/-! ### A platform to test on: every open form has an opcode byte, `REG_CODE` is X 0x02, Y 0x03, SP 0x04, SR 0x05,
`STACK_PAGE` is 0x01, and `MEM_MAP` has a rom, an absent and a device range. -/

/-- An `OPCODE_MAP` with all 35 open forms. -/
def opcodes : List (Form × Byte) :=
  [(.movRR, 0x10), (.movRI, 0x11), (.movRA, 0x12), (.movAR, 0x13), (.addR, 0x14), (.addA, 0x15), (.subR, 0x16),
   (.subA, 0x17), (.adcR, 0x18), (.adcA, 0x19), (.lshR, 0x1A), (.lshA, 0x1B), (.rshR, 0x1C), (.rshA, 0x1D),
   (.orR, 0x1E), (.orA, 0x1F), (.andR, 0x20), (.andA, 0x21), (.xorR, 0x22), (.xorA, 0x23), (.cmp, 0x24),
   (.inc, 0x25), (.dec, 0x26), (.callA, 0x27), (.ret, 0x28), (.pushI, 0x29), (.pushR, 0x2A), (.pushA, 0x2B),
   (.popR, 0x2C), (.popA, 0x2D), (.intR, 0x2E), (.intI, 0x2F), (.iret, 0x30), (.cli, 0x31), (.sei, 0x32)]

def platform : Config :=
  { opcodeMap := opcodes, regX := 0x02, regY := 0x03, regSP := 0x04, regSR := 0x05, stackPage := 0x01
    intTarget := .entries 0x4000 0x0010, resetPc := 0x0100
    memMap := [⟨0xE000, 0x1000, .rom⟩, ⟨0xF000, 0x0800, .absent⟩, ⟨0xF800, 0x0100, .device⟩] }

/-- A running machine on `platform`. -/
def start : State := State.launch platform []

/-- The state after one step at the bytes `bs`, if it is a next state. -/
def after (bs : List Byte) (s : State) : Option State :=
  match step { s with mem := storeBytes s.mem s.pc bs } with
  | .next t => some t
  | _ => none

/-- The fault of one step at the bytes `bs`, if it is a fault. -/
def faultOf (bs : List Byte) (s : State) : Option Fault :=
  match step { s with mem := storeBytes s.mem s.pc bs } with
  | .fault e => some e
  | _ => none

/-- The refusal of one step at the bytes `bs`, if it is a refusal. -/
def refusalOf (bs : List Byte) (s : State) : Option Refusal :=
  match step { s with mem := storeBytes s.mem s.pc bs } with
  | .refused e => some e
  | _ => none

/-- CF, ZF, SF, OF, in the order of `95_test_vectors.md`. -/
def flagsOf (s : State) : List Bool := [s.sr.cf, s.sr.zf, s.sr.sf, s.sr.of]

/-- `start` with A and B. -/
def withAB (a b : Byte) : State := { start with a := a, b := b }

/-- `start` with SP and bytes on the stack page, or anywhere in memory. -/
def withSp (sp : Byte) (m : Memory) : State := { start with sp := sp, mem := m }

/-- A status with the four flags in the order CF, ZF, SF, OF. -/
def status (ie cf zf sf of : Bool) : Status := { ie := ie, of := of, sf := sf, zf := zf, cf := cf }

/-! ### Well-formedness: an ill-formed term for each check -/

theorem test_platform_wf : platform.wf = true := by decide
theorem test_default_wf : Config.default.wf = true := by decide
theorem test_wf_refuses_source_form : opcodeMapOk [(.jmp, 0x10)] = false := by decide
theorem test_wf_refuses_assigned_byte : opcodeMapOk [(.cmp, 0xD0)] = false := by decide
theorem test_wf_refuses_hlt_byte : opcodeMapOk [(.cmp, 0xFF)] = false := by decide
theorem test_wf_refuses_form_twice : opcodeMapOk [(.cmp, 0x10), (.cmp, 0x11)] = false := by decide
theorem test_wf_refuses_byte_twice : opcodeMapOk [(.cmp, 0x10), (.inc, 0x10)] = false := by decide
theorem test_wf_refuses_code_of_a : ({ platform with regX := 0x00 } : Config).regCodesOk = false := by decide
theorem test_wf_refuses_equal_codes : ({ platform with regX := 0x03 } : Config).regCodesOk = false := by decide
theorem test_wf_refuses_long_region : (⟨0xFFFF, 2, .rom⟩ : MemRegion).wf = false := by decide
theorem test_config_wf_refuses_map : ({ platform with opcodeMap := [(.jmp, 0x10)] } : Config).wf = false := by decide
theorem test_config_wf_refuses_codes : ({ platform with regSR := 0x01 } : Config).wf = false := by decide
theorem test_config_wf_refuses_region : ({ platform with memMap := [⟨0x0001, 65536, .rom⟩] } : Config).wf = false := by decide
theorem test_instr_wf_refuses_open_form : Instr.cmp.wf Config.default = false := by decide
theorem test_instr_wf_source_form : Instr.hlt.wf Config.default = true := by decide
theorem test_blank_edges :
    ([0x00, 0xCF, 0xDF, 0xFE] : List Byte).all opcodeIsBlank = true ∧ ([0xD0, 0xDE, 0xFF] : List Byte).any opcodeIsBlank = false := by
  decide

/-! ### Decoding: a word for every constructor, written out from rules R92 to R98 -/

theorem test_decode_movRR : decode platform [0x10, 0x00, 0x01] = .ok (.movRR .a .b, []) := by rfl
theorem test_decode_movRI : decode platform [0x11, 0x04, 0xFF] = .ok (.movRI .sp 0xFF, []) := by rfl
theorem test_decode_movRA : decode platform [0x12, 0x01, 0x34, 0x12] = .ok (.movRA .b 0x1234, []) := by rfl
theorem test_decode_movAR : decode platform [0x13, 0x00, 0x80, 0x05] = .ok (.movAR 0x8000 .sr, []) := by rfl
theorem test_decode_jmp : decode Config.default [0xD0, 0x34, 0x12] = .ok (.jmp 0x1234, []) := by rfl
theorem test_decode_jo : decode Config.default [0xD1, 0x00, 0x03] = .ok (.jo 0x0300, []) := by rfl
theorem test_decode_jno : decode Config.default [0xD2, 0x00, 0x03] = .ok (.jno 0x0300, []) := by rfl
theorem test_decode_js : decode Config.default [0xD3, 0x00, 0x03] = .ok (.js 0x0300, []) := by rfl
theorem test_decode_jns : decode Config.default [0xD4, 0x00, 0x03] = .ok (.jns 0x0300, []) := by rfl
theorem test_decode_je : decode Config.default [0xD5, 0xFF, 0xFF] = .ok (.je 0xFFFF, []) := by rfl
theorem test_decode_jne : decode Config.default [0xD6, 0x34, 0x12] = .ok (.jne 0x1234, []) := by rfl
theorem test_decode_jb : decode Config.default [0xD7, 0x01, 0x00] = .ok (.jb 0x0001, []) := by rfl
theorem test_decode_jnb : decode Config.default [0xD8, 0x00, 0x03] = .ok (.jnb 0x0300, []) := by rfl
theorem test_decode_jbe : decode Config.default [0xD9, 0x00, 0x03] = .ok (.jbe 0x0300, []) := by rfl
theorem test_decode_ja : decode Config.default [0xDA, 0x00, 0x03] = .ok (.ja 0x0300, []) := by rfl
theorem test_decode_jl : decode Config.default [0xDB, 0x00, 0x03] = .ok (.jl 0x0300, []) := by rfl
theorem test_decode_jge : decode Config.default [0xDC, 0x00, 0x03] = .ok (.jge 0x0300, []) := by rfl
theorem test_decode_jle : decode Config.default [0xDD, 0x00, 0x03] = .ok (.jle 0x0300, []) := by rfl
theorem test_decode_jg : decode Config.default [0xDE, 0x00, 0x80] = .ok (.jg 0x8000, []) := by rfl
theorem test_decode_addR : decode platform [0x14, 0x00] = .ok (.addR .a, []) := by rfl
theorem test_decode_addA : decode platform [0x15, 0x20, 0x80] = .ok (.addA 0x8020, []) := by rfl
theorem test_decode_subR : decode platform [0x16, 0x01] = .ok (.subR .b, []) := by rfl
theorem test_decode_subA : decode platform [0x17, 0x21, 0x81] = .ok (.subA 0x8121, []) := by rfl
theorem test_decode_adcR : decode platform [0x18, 0x02] = .ok (.adcR .x, []) := by rfl
theorem test_decode_adcA : decode platform [0x19, 0x22, 0x82] = .ok (.adcA 0x8222, []) := by rfl
theorem test_decode_lshR : decode platform [0x1A, 0x03] = .ok (.lshR .y, []) := by rfl
theorem test_decode_lshA : decode platform [0x1B, 0x23, 0x83] = .ok (.lshA 0x8323, []) := by rfl
theorem test_decode_rshR : decode platform [0x1C, 0x04] = .ok (.rshR .sp, []) := by rfl
theorem test_decode_rshA : decode platform [0x1D, 0x24, 0x84] = .ok (.rshA 0x8424, []) := by rfl
theorem test_decode_orR : decode platform [0x1E, 0x02] = .ok (.orR .x, []) := by rfl
theorem test_decode_orA : decode platform [0x1F, 0x25, 0x85] = .ok (.orA 0x8525, []) := by rfl
theorem test_decode_andR : decode platform [0x20, 0x03] = .ok (.andR .y, []) := by rfl
theorem test_decode_andA : decode platform [0x21, 0x26, 0x86] = .ok (.andA 0x8626, []) := by rfl
theorem test_decode_xorR : decode platform [0x22, 0x00] = .ok (.xorR .a, []) := by rfl
theorem test_decode_xorA : decode platform [0x23, 0x27, 0x87] = .ok (.xorA 0x8727, []) := by rfl
theorem test_decode_cmp : decode platform [0x24] = .ok (.cmp, []) := by rfl
theorem test_decode_inc : decode platform [0x25] = .ok (.inc, []) := by rfl
theorem test_decode_dec : decode platform [0x26] = .ok (.dec, []) := by rfl
theorem test_decode_callA : decode platform [0x27, 0x00, 0x02] = .ok (.callA 0x0200, []) := by rfl
theorem test_decode_ret : decode platform [0x28] = .ok (.ret, []) := by rfl
theorem test_decode_pushI : decode platform [0x29, 0x7E] = .ok (.pushI 0x7E, []) := by rfl
theorem test_decode_pushR : decode platform [0x2A, 0x01] = .ok (.pushR .b, []) := by rfl
theorem test_decode_pushA : decode platform [0x2B, 0x00, 0x30] = .ok (.pushA 0x3000, []) := by rfl
theorem test_decode_popR : decode platform [0x2C, 0x03] = .ok (.popR .y, []) := by rfl
theorem test_decode_popA : decode platform [0x2D, 0x01, 0x30] = .ok (.popA 0x3001, []) := by rfl
theorem test_decode_intR : decode platform [0x2E, 0x00] = .ok (.intR .a, []) := by rfl
theorem test_decode_intI : decode platform [0x2F, 0x21] = .ok (.intI 0x21, []) := by rfl
theorem test_decode_iret : decode platform [0x30] = .ok (.iret, []) := by rfl
theorem test_decode_cli : decode platform [0x31] = .ok (.cli, []) := by rfl
theorem test_decode_sei : decode platform [0x32] = .ok (.sei, []) := by rfl
theorem test_decode_hlt : decode Config.default [0xFF] = .ok (.hlt, []) := by rfl

theorem test_decode_blank : ([0x00, 0xCF, 0xDF, 0xFE] : List Byte).map (fun v => decode Config.default [v])
    = [.error (.illegalOpcode 0x00), .error (.illegalOpcode 0xCF), .error (.illegalOpcode 0xDF), .error (.illegalOpcode 0xFE)] := by
  rfl
theorem test_decode_bad_code : decode platform [0x10, 0x00, 0x7C] = .error (.illegalRegCode 0x7C) := by rfl
theorem test_decode_short : decode platform [0xD0, 0x00] = .error .truncated := by rfl
theorem test_table_word_jne : decodeTableWord 24 0x1234D6 = some (.jne 0x1234) := by decide
theorem test_table_word_short : decodeTableWord 8 0xD0 = some (.jmp 0x0000) := by decide
theorem test_table_word_hlt : decodeTableWord 8 0xFF = some .hlt := by decide
theorem test_table_word_open : decodeTableWord 8 0x10 = none := by decide

/-- The state after the host's word, from reset. -/
def afterWord (nbits w : Nat) : Option State :=
  match step (State.reset.withFetchWord nbits w) with
  | .next t => some t
  | _ => none

theorem test_fetch_word_jmp : (afterWord 24 0x1234D0).map (·.pc) = some 0x1234 := by decide
theorem test_fetch_word_hlt : (afterWord 8 0xFF).map (fun t => (t.halted, t.pc)) = some (true, 0x0001) := by decide

/-! ### Single steps: the vectors of `95_test_vectors.md` sections 2.1 to 2.7 -/

theorem test_mov_reg_reg : (after [0x10, 0x00, 0x01] (withAB 0x00 0x5A)).map (fun t => (t.a, t.b, t.pc)) = some (0x5A, 0x5A, 0x0103) := by decide
theorem test_mov_imm_no_flag : (after [0x11, 0x00, 0x00] { start with a := 0x77 }).map (fun t => (t.a, t.sr.zf)) = some (0x00, false) := by decide
theorem test_mov_sr_imm : (after [0x11, 0x05, 0x8F] start).map (·.sr) = some (status true true true true true) := by decide
theorem test_sr_as_byte : ∀ free, ((status true false true false false).toByte free).getLsbD 7 = true
    ∧ ((status true false true false false).toByte free).extractLsb' 0 4 = 0x2 := by decide
theorem test_mov_load : (after [0x12, 0x01, 0x34, 0x12] { start with mem := [(0x1234, 0x7F)] }).map (fun t => (t.b, t.pc)) = some (0x7F, 0x0104) := by decide
theorem test_mov_store : (after [0x13, 0x00, 0x80, 0x00] { start with a := 0xC3, mem := [(0x7FFF, 0x01), (0x8001, 0x02)] }).map (fun t => [t.peek 0x7FFF, t.peek 0x8000, t.peek 0x8001]) = some [some 0x01, some 0xC3, some 0x02] := by decide
theorem test_mov_store_next_fetch : (after [0x13, 0x04, 0x01, 0x00] { start with a := 0xD0, mem := [(0x0104, 0xFF)] }).map (fun t => (t.pc, t.peek 0x0104)) = some (0x0104, some 0xD0) := by decide

/-- Whether a jump is taken, in the 16 rows of the table of section 2.3 from SR[3:0] = 0 up. -/
def takenRows (op : Byte) : List Bool :=
  (List.range 16).map fun k =>
    (after [op, 0x00, 0x03] { start with sr := Status.ofByte (BitVec.ofNat 8 k) }).map (·.pc) == some 0x0300

theorem test_taken_jmp : takenRows 0xD0 = [true, true, true, true, true, true, true, true, true, true, true, true, true, true, true, true] := by decide
theorem test_taken_jo : takenRows 0xD1 = [false, false, false, false, false, false, false, false, true, true, true, true, true, true, true, true] := by decide
theorem test_taken_jno : takenRows 0xD2 = [true, true, true, true, true, true, true, true, false, false, false, false, false, false, false, false] := by decide
theorem test_taken_js : takenRows 0xD3 = [false, false, false, false, true, true, true, true, false, false, false, false, true, true, true, true] := by decide
theorem test_taken_jns : takenRows 0xD4 = [true, true, true, true, false, false, false, false, true, true, true, true, false, false, false, false] := by decide
theorem test_taken_je : takenRows 0xD5 = [false, false, true, true, false, false, true, true, false, false, true, true, false, false, true, true] := by decide
theorem test_taken_jne : takenRows 0xD6 = [true, true, false, false, true, true, false, false, true, true, false, false, true, true, false, false] := by decide
theorem test_taken_jb : takenRows 0xD7 = [false, true, false, true, false, true, false, true, false, true, false, true, false, true, false, true] := by decide
theorem test_taken_jnb : takenRows 0xD8 = [true, false, true, false, true, false, true, false, true, false, true, false, true, false, true, false] := by decide
theorem test_taken_jbe : takenRows 0xD9 = [false, true, true, true, false, true, true, true, false, true, true, true, false, true, true, true] := by decide
theorem test_taken_ja : takenRows 0xDA = [true, false, false, false, true, false, false, false, true, false, false, false, true, false, false, false] := by decide
theorem test_taken_jl : takenRows 0xDB = [false, false, false, false, true, true, true, true, true, true, true, true, false, false, false, false] := by decide
theorem test_taken_jge : takenRows 0xDC = [true, true, true, true, false, false, false, false, false, false, false, false, true, true, true, true] := by decide
theorem test_taken_jle : takenRows 0xDD = [false, false, true, true, true, true, true, true, true, true, true, true, false, false, true, true] := by decide
theorem test_taken_jg : takenRows 0xDE = [true, true, false, false, false, false, false, false, false, false, false, false, true, true, false, false] := by decide
theorem test_jump_not_taken_wraps : (after [0xD5, 0x00, 0x30] { start with pc := 0xFFFD }).map (·.pc) = some 0x0000 := by decide
theorem test_jump_straddles_top : (after [0xD0, 0x00, 0x10] { start with pc := 0xFFFE }).map (·.pc) = some 0x1000 := by decide
theorem test_add_signed_overflow : (after [0x14, 0x02] (withAB 0x80 0x80)).map (fun t => (t.x, flagsOf t)) = some (0x00, [true, true, false, true]) := by decide
theorem test_add_mem : (after [0x15, 0x00, 0x20] (withAB 0x7F 0x01)).map (fun t => (t.peek 0x2000, flagsOf t)) = some (some 0x80, [false, false, true, true]) := by decide
theorem test_adc_carry_in : (after [0x18, 0x02] { withAB 0xFF 0x00 with sr := status false true false false false }).map (fun t => (t.x, flagsOf t)) = some (0x00, [true, true, false, false]) := by decide
theorem test_adc_mem : (after [0x19, 0x00, 0x20] { withAB 0x7F 0x00 with sr := status false true false false false }).map (fun t => (t.peek 0x2000, flagsOf t)) = some (some 0x80, [false, false, true, true]) := by decide
theorem test_sub_borrow : (after [0x16, 0x02] (withAB 0x7F 0xFF)).map (fun t => (t.x, flagsOf t)) = some (0x80, [true, false, true, true]) := by decide
theorem test_sub_mem : (after [0x17, 0x00, 0x20] (withAB 0x50 0x60)).map (fun t => (t.peek 0x2000, flagsOf t)) = some (some 0xF0, [true, false, true, false]) := by decide
theorem test_or_reg : (after [0x1E, 0x02] (withAB 0xF0 0x0F)).map (fun t => (t.x, flagsOf t)) = some (0xFF, [false, false, true, false]) := by decide
theorem test_or_mem : (after [0x1F, 0x00, 0x20] (withAB 0x00 0x00)).map (fun t => (t.peek 0x2000, flagsOf t)) = some (some 0x00, [false, true, false, false]) := by decide
theorem test_and_reg : (after [0x20, 0x02] (withAB 0xF0 0x0F)).map (fun t => (t.x, flagsOf t)) = some (0x00, [false, true, false, false]) := by decide
theorem test_and_mem : (after [0x21, 0x00, 0x20] (withAB 0xAA 0xFF)).map (fun t => (t.peek 0x2000, flagsOf t)) = some (some 0xAA, [false, false, true, false]) := by decide
theorem test_xor_reg : (after [0x22, 0x02] (withAB 0xAA 0xFF)).map (fun t => (t.x, flagsOf t)) = some (0x55, [false, false, false, false]) := by decide
theorem test_xor_mem : (after [0x23, 0x00, 0x20] (withAB 0x80 0x80)).map (fun t => (t.peek 0x2000, flagsOf t)) = some (some 0x00, [false, true, false, false]) := by decide
theorem test_lsh_four : (after [0x1A, 0x02] (withAB 0xFF 0x04)).map (fun t => (t.x, t.sr.zf, t.sr.sf)) = some (0xF0, false, true) := by decide
theorem test_lsh_count_255 : (after [0x1B, 0x00, 0x20] (withAB 0xFF 0xFF)).map (fun t => (t.peek 0x2000, t.sr.zf, t.sr.sf)) = some (some 0x00, true, false) := by decide
theorem test_rsh_logical : (after [0x1C, 0x02] (withAB 0x81 0x01)).map (fun t => (t.x, t.sr.zf, t.sr.sf)) = some (0x40, false, false) := by decide
theorem test_rsh_count_8 : (after [0x1D, 0x00, 0x20] (withAB 0x01 0x08)).map (fun t => (t.peek 0x2000, t.sr.zf, t.sr.sf)) = some (some 0x00, true, false) := by decide
theorem test_cmp_less : (after [0x24] (withAB 0x80 0x01)).map (fun t => (t.a, flagsOf t)) = some (0x80, [false, false, false, true]) := by decide
theorem test_cmp_borrow : (after [0x24] (withAB 0x05 0x09)).map (fun t => (t.a, flagsOf t)) = some (0x05, [true, false, true, false]) := by decide
theorem test_inc_wraps : (after [0x25] (withAB 0xFF 0x33)).map (fun t => (t.a, t.b, flagsOf t)) = some (0x00, 0x33, [true, true, false, false]) := by decide
theorem test_inc_overflow : (after [0x25] (withAB 0x7F 0x33)).map (fun t => (t.a, flagsOf t)) = some (0x80, [false, false, true, true]) := by decide
theorem test_dec_borrow : (after [0x26] (withAB 0x00 0x33)).map (fun t => (t.a, flagsOf t)) = some (0xFF, [true, false, true, false]) := by decide
theorem test_dec_overflow : (after [0x26] (withAB 0x80 0x33)).map (fun t => (t.a, flagsOf t)) = some (0x7F, [false, false, false, true]) := by decide
theorem test_add_to_sp : (after [0x14, 0x04] { withAB 0x14 0x22 with sp := 0x80 }).map (fun t => (t.a, t.b, t.sp)) = some (0x14, 0x22, 0x36) := by decide
theorem test_add_to_sr : refusalOf [0x14, 0x05] (withAB 0x14 0x22) = some .aluDestSR := by decide
theorem test_push_imm_wraps : (after [0x29, 0x01] (withSp 0x00 [])).map (fun t => (t.sp, t.peek 0x01FF)) = some (0xFF, some 0x01) := by decide
theorem test_push_sp_is_old : (after [0x2A, 0x04] (withSp 0x10 [])).map (fun t => (t.sp, t.peek 0x010F)) = some (0x0F, some 0x10) := by decide
theorem test_push_mem : (after [0x2B, 0x00, 0x30] (withSp 0x40 [(0x3000, 0x99)])).map (fun t => (t.sp, t.peek 0x013F)) = some (0x3F, some 0x99) := by decide
theorem test_pop_reg_wraps : (after [0x2C, 0x00] (withSp 0xFF [(0x01FF, 0x22)])).map (fun t => (t.a, t.sp)) = some (0x22, 0x00) := by decide
theorem test_pop_sp : (after [0x2C, 0x04] (withSp 0x20 [(0x0120, 0x77)])).map (·.sp) = some 0x77 := by decide
theorem test_pop_sr : (after [0x2C, 0x05] (withSp 0x20 [(0x0120, 0x8A)])).map (fun t => (t.sr, t.sp)) = some (status true false true false true, 0x21) := by decide
theorem test_pop_mem : (after [0x2D, 0x01, 0x30] (withSp 0x3F [(0x013F, 0x99)])).map (fun t => (t.peek 0x3001, t.sp)) = some (some 0x99, 0x40) := by decide
theorem test_call : (after [0x27, 0x00, 0x02] { withSp 0xFF [] with pc := 0x0A00 }).map (fun t => (t.peek 0x01FE, t.peek 0x01FD, t.sp, t.pc)) = some (some 0x0A, some 0x03, 0xFD, 0x0200) := by decide
theorem test_call_page_wraps : (after [0x27, 0x00, 0x02] { withSp 0x01 [] with pc := 0x0A00 }).map (fun t => (t.peek 0x0100, t.peek 0x01FF, t.sp)) = some (some 0x0A, some 0x03, 0xFF) := by decide
theorem test_ret : (after [0x28] (withSp 0xFD [(0x01FD, 0x03), (0x01FE, 0x01)])).map (fun t => (t.pc, t.sp)) = some (0x0103, 0xFF) := by decide
theorem test_ret_page_wraps : (after [0x28] { withSp 0xFF [(0x0100, 0x12), (0x01FF, 0x34)] with pc := 0x0A00 }).map (fun t => (t.pc, t.sp)) = some (0x1234, 0x01) := by decide
theorem test_int_imm : (after [0x2F, 0x21] { withSp 0xF0 [] with pc := 0x0040 }).map (fun t => (t.peek 0x01EF, t.peek 0x01EE, t.sp, t.pc)) = some (some 0x00, some 0x42, 0xEE, 0x4210) := by decide
theorem test_int_sp_is_old : (after [0x2E, 0x04] { withSp 0xF0 [] with pc := 0x0040 }).map (fun t => (t.sp, t.pc)) = some (0xEE, 0x4F00) := by decide
theorem test_int_table : (after [0x2F, 0x21] { withSp 0xF0 [(0x4042, 0x34), (0x4043, 0x12)] with cfg := { platform with intTarget := .table 0x4000 } }).map (·.pc) = some 0x1234 := by decide
theorem test_iret_restores_no_flag : (after [0x30] { withSp 0xEE [(0x01EE, 0x42), (0x01EF, 0x00)] with sr := status false true false true false }).map (fun t => (t.pc, t.sp, t.sr)) = some (0x0042, 0xF0, status false true false true false) := by decide
theorem test_cli : (after [0x31] { start with sr := status true false true false true }).map (·.sr) = some (status false false true false true) := by decide
theorem test_sei : (after [0x32] { start with sr := status false true false false false }).map (·.sr) = some (status true true false false false) := by decide
theorem test_hlt : (after [0xFF] { start with pc := 0x0006 }).map (fun t => (t.halted, t.pc)) = some (true, 0x0007) := by decide
theorem test_hlt_wraps : (after [0xFF] { start with pc := 0xFFFF }).map (fun t => (t.halted, t.pc)) = some (true, 0x0000) := by decide
theorem test_halted_stays : after [0xD0, 0x00, 0x03] { start with halted := true } = some { start with halted := true, mem := storeBytes [] 0x0100 [0xD0, 0x00, 0x03] } := by
  rfl
theorem test_blank_faults : faultOf [0xDF] start = some (.illegalOpcode 0xDF 0x0101) := by decide
theorem test_bad_code_faults : faultOf [0x10, 0x00, 0x7C] start = some (.illegalRegCode 0x7C) := by decide
theorem test_load_absent : faultOf [0x12, 0x00, 0xFF, 0xF7] start = some (.absentMemory 0xF7FF) := by decide
theorem test_load_device : refusalOf [0x12, 0x00, 0xFF, 0xF8] start = some (.deviceAccess 0xF8FF) := by decide
theorem test_fetch_absent : (match step { start with pc := 0xF000 } with | .fault e => some e | _ => none) = some (.absentMemory 0xF000) := by
  decide

/-! ### Witnesses: for every obligation with hypotheses, a concrete case that meets them all together. -/

theorem readable_at {s : State} {adr : Addr} (h : kindAt s.cfg.memMap adr = .ram) : s.readable adr := .inl h

theorem witness_DecodeOfEncodeIsInstr : platform.wf = true ∧ (Instr.movAR 0x1234 .sr).wf platform = true ∧ (Instr.jg 0xFFFF).wf platform = true := by
  decide
theorem witness_EncodeOfDecodeIsBytes :
    platform.wf = true ∧ decode platform [0x13, 0x34, 0x12, 0x05, 0x99] = .ok (.movAR 0x1234 .sr, [0x99]) := ⟨by decide, rfl⟩
theorem witness_OpcodeAloneFixesFormAndLength : decode platform [0x10, 0x00, 0x01, 0x99] = .ok (.movRR .a .b, [0x99]) := rfl
theorem witness_SourceOpcodesUnderEveryMap : ((0xD0 : Byte), Form.jmp, Format.opA16) ∈ [((0xD0 : Byte), Form.jmp, Format.opA16),
    (0xFF, .hlt, .op)] := by decide
theorem witness_RegisterCodesNameSixRegisters : platform.wf = true ∧ ∀ r, regCode platform r ≠ 0x06 :=
  ⟨by decide, fun r => by cases r <;> decide⟩

/-- `start` at an instruction that straddles the top of memory. -/
def atTop : State := { start with pc := 0xFFFE, mem := [(0x0000, 0x10), (0xFFFE, 0xD0), (0xFFFF, 0x00)] }

theorem witness_StepRunsDecodedInstr : atTop.halted = false ∧ atTop.codeAt atTop.pc [0xD0, 0x00, 0x10]
    ∧ decode atTop.cfg [0xD0, 0x00, 0x10] = .ok (.jmp 0x1000, []) :=
  ⟨rfl, ⟨.inl rfl, rfl, .inl rfl, rfl, .inl rfl, rfl, trivial⟩, rfl⟩
theorem witness_HaltedStaysAsItIs : ({ start with halted := true } : State).halted = true := rfl

/-- `start` at one byte. -/
def atByte (v : Byte) : State := { start with mem := [(0x0100, v)] }

theorem witness_UnassignedOpcodeFaults : (atByte 0xDF).halted = false ∧ (atByte 0xDF).readable (atByte 0xDF).pc
    ∧ (atByte 0xDF).peek (atByte 0xDF).pc = some 0xDF ∧ opcodeIsBlank 0xDF = true ∧ ∀ e ∈ (atByte 0xDF).cfg.opcodeMap, e.2 ≠ 0xDF :=
  ⟨rfl, .inl rfl, rfl, by decide, by decide⟩
theorem witness_UnassignedOpcodeFaults_edge : (atByte 0xCF).halted = false ∧ (atByte 0xCF).readable (atByte 0xCF).pc
    ∧ (atByte 0xCF).peek (atByte 0xCF).pc = some 0xCF ∧ opcodeIsBlank 0xCF = true ∧ ∀ e ∈ (atByte 0xCF).cfg.opcodeMap, e.2 ≠ 0xCF :=
  ⟨rfl, .inl rfl, rfl, by decide, by decide⟩

/-- `start` at `MOV` with the register bytes 0x00 and 0x7C. -/
def atBadCode : State := { start with mem := [(0x0100, 0x10), (0x0101, 0x00), (0x0102, 0x7C)] }

/-- `start` with SP 0x11, a table of handler addresses at 0x4000 and one address of another kind than ram, at `MOV`'s opcode. -/
def narrowed (adr : Addr) (k : MemKind) : State :=
  { start with
    sp := 0x11, mem := [(0x0100, 0x10)]
    cfg := { platform with memMap := [⟨adr, 1, k⟩], intTarget := .table 0x4000 } }

theorem witness_BadRegisterCodeFaults : atBadCode.halted = false ∧ atBadCode.codeAt atBadCode.pc [0x10, 0x00, 0x7C]
    ∧ [0x10, 0x00, 0x7C].head? = some (0x10 : Byte) ∧ formOf atBadCode.cfg 0x10 = some .movRR
    ∧ [0x10, 0x00, (0x7C : Byte)].length = Form.movRR.length ∧ 2 ∈ regBytes Form.movRR.format
    ∧ ([0x10, 0x00, 0x7C] : List Byte)[2]? = some 0x7C ∧ (∀ r, regCode atBadCode.cfg r ≠ 0x7C)
    ∧ ∀ j ∈ regBytes Form.movRR.format, j < 2 → ∃ r, ([0x10, 0x00, 0x7C] : List Byte)[j]? = some (regCode atBadCode.cfg r) :=
  ⟨rfl, ⟨.inl rfl, rfl, .inl rfl, rfl, .inl rfl, rfl, trivial⟩, rfl, rfl, rfl, by decide, rfl, fun r => by cases r <;> decide,
    fun j hj hlt => ⟨.a, by revert j; decide⟩⟩
/-- An operand byte at an absent address, the last byte of the instruction. -/
theorem witness_BadRegisterCodeFaults_absent : (narrowed 0x0102 .absent).halted = false
    ∧ (narrowed 0x0102 .absent).peek (narrowed 0x0102 .absent).pc = some 0x10
    ∧ formOf (narrowed 0x0102 .absent).cfg 0x10 = some .movRR ∧ 2 < Form.movRR.length
    ∧ (∀ j < 2, (narrowed 0x0102 .absent).readable ((narrowed 0x0102 .absent).pc + BitVec.ofNat 16 j))
    ∧ kindAt (narrowed 0x0102 .absent).cfg.memMap ((narrowed 0x0102 .absent).pc + BitVec.ofNat 16 2) = .absent :=
  ⟨rfl, rfl, rfl, by decide, fun j hj => .inl (by revert j; decide), by decide⟩
theorem witness_BadRegisterCodeFaults_code : step atBadCode = .fault (.illegalRegCode 0x7C) := rfl
theorem witness_MemoryMapStops : kindAt start.cfg.memMap 0xF000 = .absent ∧ kindAt start.cfg.memMap 0xF7FF = .absent
    ∧ kindAt start.cfg.memMap 0xE000 = .rom ∧ kindAt start.cfg.memMap 0xEFFF = .rom
    ∧ kindAt start.cfg.memMap 0xF800 = .device ∧ kindAt start.cfg.memMap 0xF8FF = .device
    ∧ ({ start with pc := 0xF8FF } : State).halted = false ∧ ({ start with pc := 0xF8FF } : State).pc = 0xF8FF := by decide
/-- An operand byte at a device's address. -/
theorem witness_MemoryMapStops_operand : (narrowed 0x0101 .device).halted = false
    ∧ (narrowed 0x0101 .device).peek (narrowed 0x0101 .device).pc = some 0x10
    ∧ formOf (narrowed 0x0101 .device).cfg 0x10 = some .movRR ∧ 1 < Form.movRR.length
    ∧ (∀ j < 1, (narrowed 0x0101 .device).readable ((narrowed 0x0101 .device).pc + BitVec.ofNat 16 j))
    ∧ (narrowed 0x0101 .device).pc + BitVec.ofNat 16 1 = 0x0101 ∧ kindAt (narrowed 0x0101 .device).cfg.memMap 0x0101 = .device :=
  ⟨rfl, rfl, rfl, by decide, fun j hj => .inl (by revert j; decide), by decide, by decide⟩
/-- PUSH of an address; POP, RET and IRET at the top of the stack; RET and IRET at the byte above it. -/
theorem witness_LoadsStopByMemoryMap : kindAt (narrowed 0x2000 .absent).cfg.memMap 0x2000 = .absent
    ∧ kindAt (narrowed 0x0111 .device).cfg.memMap ((narrowed 0x0111 .device).stackTop 0) = .device
    ∧ (narrowed 0x0112 .absent).readable ((narrowed 0x0112 .absent).stackTop 0)
    ∧ kindAt (narrowed 0x0112 .absent).cfg.memMap
        (stackAddr (narrowed 0x0112 .absent).cfg.stackPage ((narrowed 0x0112 .absent).sp + 1)) = .absent :=
  ⟨by decide, by decide, .inl rfl, by decide⟩
/-- The second byte of the last entry of INT's table. -/
theorem witness_LoadsStopByMemoryMap_table : (narrowed 0x41FF .device).cfg.intTarget = .table 0x4000
    ∧ (narrowed 0x41FF .device).writable ((narrowed 0x41FF .device).stackTop 1)
    ∧ (narrowed 0x41FF .device).writable ((narrowed 0x41FF .device).stackTop 2)
    ∧ (narrowed 0x41FF .device).readable (0x4000 + 2 * (0xFF : Byte).setWidth 16)
    ∧ kindAt (narrowed 0x41FF .device).cfg.memMap (0x4000 + 2 * (0xFF : Byte).setWidth 16 + 1) = .device :=
  ⟨rfl, rfl, rfl, .inl rfl, by decide⟩
theorem witness_StoresStopByMemoryMap : kindAt (narrowed 0x2000 .rom).cfg.memMap 0x2000 = .rom
    ∧ Instr.xorA ∈ [Instr.addA, .subA, .adcA, .lshA, .rshA, .orA, .andA, .xorA]
    ∧ (narrowed 0x2000 .rom).readable ((narrowed 0x2000 .rom).stackTop 0) ∧ (narrowed 0x0110 .rom).readable 0x2000
    ∧ kindAt (narrowed 0x0110 .rom).cfg.memMap ((narrowed 0x0110 .rom).stackTop 1) = .rom :=
  ⟨by decide, by simp, .inl rfl, .inl rfl, by decide⟩
/-- The second byte that CALL and INT push. -/
theorem witness_StoresStopByMemoryMap_second : (∃ adr, Instr.callA 0x2000 = .callA adr)
    ∧ (narrowed 0x010F .absent).cfg.intTarget ≠ .absent ∧ (∃ n, Instr.intI 0x21 = .intI n) ∧ (∃ rs, Instr.intR .a = .intR rs)
    ∧ (narrowed 0x010F .absent).writable ((narrowed 0x010F .absent).stackTop 1)
    ∧ kindAt (narrowed 0x010F .absent).cfg.memMap ((narrowed 0x010F .absent).stackTop 2) = .absent :=
  ⟨⟨_, rfl⟩, by decide, ⟨_, rfl⟩, ⟨_, rfl⟩, rfl, by decide⟩
theorem witness_StopsNameTheirCause :
    exec (.movAR 0xE000 .a) start = .fault (.writeToRom 0xE000) ∧ exec (.movRA .a 0xF000) start = .fault (.absentMemory 0xF000)
      ∧ exec (.addR .sr) start = .refused .aluDestSR ∧ exec (.movRA .a 0xF800) start = .refused (.deviceAccess 0xF800)
      ∧ exec (.intI 0) { start with cfg := { platform with intTarget := .absent } } = .refused .intTargetOpen :=
  ⟨rfl, rfl, rfl, rfl, rfl⟩
theorem witness_StopsNameTheirCause_intR :
    exec (.intR .a) { start with cfg := { platform with intTarget := .absent } } = .refused .intTargetOpen := rfl

/-- `start` after `MOV [0x2000], A`. -/
def stored : State := { start with mem := [(0x2000, 0x00)], mar := 0x2000 }

theorem witness_CompletedStoresWereToRam : exec (.movAR 0x2000 .a) start = .next stored ∧ (0x2000 : Addr) ∈ storedTo start (.movAR 0x2000 .a) :=
  ⟨rfl, by decide⟩

theorem witness_step_next : (atByte 0xFF).Inv
    ∧ step (atByte 0xFF) = .next { atByte 0xFF with halted := true, pc := 0x0101, mar := 0x0100 }
    ∧ ¬ (atByte 0xFF).writable 0xE000 :=
  ⟨⟨by decide, by decide⟩, rfl, fun h => absurd (show kindAt platform.memMap 0xE000 = .ram from h) (by decide)⟩
theorem witness_StepKeepsInv : (atByte 0xFF).Inv
    ∧ step (atByte 0xFF) = .next { atByte 0xFF with halted := true, pc := 0x0101, mar := 0x0100 } :=
  ⟨witness_step_next.1, witness_step_next.2.1⟩
theorem witness_LaunchMeetsInv : platform.wf = true ∧ Memory.wf [(0x0000, 0x01), (0xFFFF, 0x02)] = true := by decide
theorem witness_StepKeepsPlatform : step (atByte 0xFF) = .next { atByte 0xFF with halted := true, pc := 0x0101, mar := 0x0100 } := rfl
theorem witness_OnlyRamChanges : step (atByte 0xFF) = .next { atByte 0xFF with halted := true, pc := 0x0101, mar := 0x0100 }
    ∧ ¬ (atByte 0xFF).writable 0xE000 := ⟨rfl, witness_step_next.2.2⟩
theorem witness_MarIsInvisible : start.halted = false := rfl
theorem witness_StoresOnlyWhereTabled : exec (.movAR 0x2000 .a) start = .next stored
    ∧ (0x2000 : Addr) ∈ storedTo start (.movAR 0x2000 .a) ∧ (0x1FFF : Addr) ∉ storedTo start (.movAR 0x2000 .a) :=
  ⟨rfl, by decide, by decide⟩
theorem witness_RegistersChangeOnlyAsDestination : exec (.movRI .sp 0x12) start = .next { start with sp := 0x12 }
    ∧ namedDest (.movRI .sp 0x12) ≠ some .a ∧ Instr.movRI .sp 0x12 ≠ .inc ∧ Instr.movRI .sp 0x12 ≠ .dec
    ∧ namedDest (.movRI .sp 0x12) ≠ some .b ∧ namedDest (.movRI .sp 0x12) ≠ some .x ∧ namedDest (.movRI .sp 0x12) ≠ some .y :=
  ⟨rfl, by decide, by decide, by decide, by decide, by decide, by decide⟩
theorem witness_SpChangesOnlyByStackOrName : exec (.movRI .a 0x12) start = .next { start with a := 0x12 }
    ∧ ¬ usesStack (.movRI .a 0x12) ∧ namedDest (.movRI .a 0x12) ≠ some .sp := ⟨rfl, id, by decide⟩
theorem witness_FlagsChangeOnlyByAluOrSr : exec (.movRI .a 0x12) start = .next { start with a := 0x12 }
    ∧ ¬ isAlu (.movRI .a 0x12) ∧ namedDest (.movRI .a 0x12) ≠ some .sr
    ∧ exec .cmp start = .next { start with sr := status false false true false false } ∧ isAlu .cmp :=
  ⟨rfl, id, by decide, rfl, trivial⟩
theorem witness_IeChangesOnlyByCliSeiOrSr : exec .sei start = .next { start with sr := status true false false false false }
    ∧ (status true false false false false).ie ≠ start.sr.ie := ⟨rfl, by decide⟩
theorem witness_PcWrittenOnlyByTransfers : exec .cli start = .next start ∧ ¬ transfersControl .cli := ⟨rfl, id⟩
theorem witness_OnlyHltHalts : exec .hlt start = .next { start with halted := true }
    ∧ (atByte 0xFF).halted = false ∧ EndsIn (atByte 0xFF) { atByte 0xFF with halted := true, pc := 0x0101, mar := 0x0100 } :=
  ⟨rfl, rfl, 1, rfl⟩
/-- A jump to its own address is still running where HLT has ended (rule R266: "an endless loop is a hang, not an end"). -/
theorem test_run_jump_to_itself :
    (match runFor 2 { start with mem := storeBytes [] 0x0100 [0xD0, 0x00, 0x01] } with | .running t => some t.pc | _ => none)
      = some 0x0100 := by decide
theorem test_run_fault_has_no_end : runFor 2 (atByte 0xDF) = .fault (.illegalOpcode 0xDF 0x0101) := rfl
theorem test_run_hands_back : RunHandsBack platform [(0x0100, 0xFF)]
    { a := 0x12, b := 0, x := 0, y := 0, sp := 0, sr := start.sr, pc := 0x0101, mem := [(0x0100, 0xFF)] } :=
  ⟨{ atByte 0xFF with a := 0x12 }, { atByte 0xFF with a := 0x12, halted := true, pc := 0x0101, mar := 0x0100 },
    ⟨rfl, rfl, rfl, rfl⟩, ⟨1, rfl⟩, rfl⟩

theorem witness_MovToRegisterCompletes : start.readable 0x0000 ∧ start.readable 0xE000 ∧ start.readable 0xFFFF :=
  ⟨.inl rfl, .inr rfl, .inl rfl⟩
theorem witness_writable : start.writable 0x0000 ∧ start.writable 0xDFFF ∧ start.writable 0xFFFF := ⟨rfl, rfl, rfl⟩
theorem witness_MovToMemoryCompletes : start.writable 0x0000 ∧ start.writable 0xFFFF := ⟨rfl, rfl⟩
theorem witness_LoadSeesStore : start.writable 0xFFFF := rfl
/-- `start` before A is stored as the last byte of a jump, and before A is stored as an opcode. -/
def patched : State := { start with a := 0x12, mem := [(0x0100, 0xD0), (0x0101, 0x34)] }

theorem witness_NextFetchSeesStore : patched.halted = false ∧ decode patched.cfg [0xD0, 0x34, 0x12] = .ok (.jmp 0x1234, [])
    ∧ [0xD0, 0x34, (0x12 : Byte)][2]? = some patched.a ∧ patched.writable (patched.pc + BitVec.ofNat 16 2)
    ∧ ∀ j v, j ≠ 2 → [0xD0, 0x34, (0x12 : Byte)][j]? = some v →
      patched.readable (patched.pc + BitVec.ofNat 16 j) ∧ patched.peek (patched.pc + BitVec.ofNat 16 j) = some v := by
  refine ⟨rfl, rfl, rfl, rfl, fun j v hj hv => ?_⟩
  match j, hj, hv with
  | 0, _, hv => cases hv; exact ⟨.inl rfl, rfl⟩
  | 1, _, hv => cases hv; exact ⟨.inl rfl, rfl⟩
  | 2, hj, _ => exact absurd rfl hj
  | j + 3, _, hv => cases hv
theorem witness_NextFetchSeesStore_opcode : ({ start with a := 0xFF } : State).halted = false
    ∧ decode ({ start with a := 0xFF } : State).cfg [0xFF] = .ok (.hlt, [])
    ∧ [(0xFF : Byte)][0]? = some ({ start with a := 0xFF } : State).a ∧ ({ start with a := 0xFF } : State).writable (0x0100 + BitVec.ofNat 16 0)
    ∧ ∀ j v, j ≠ 0 → [(0xFF : Byte)][j]? = some v → ({ start with a := 0xFF } : State).readable (0x0100 + BitVec.ofNat 16 j)
      ∧ ({ start with a := 0xFF } : State).peek (0x0100 + BitVec.ofNat 16 j) = some v := by
  refine ⟨rfl, rfl, rfl, rfl, fun j v hj hv => ?_⟩
  match j, hj, hv with
  | 0, hj, _ => exact absurd rfl hj
  | j + 1, _, hv => cases hv
theorem witness_JumpNamesFitComparison :
    exec .cmp (withAB 0x80 0x01) = .next { withAB 0x80 0x01 with sr := status false false false false true }
      ∧ exec (.subR .x) (withAB 0x80 0x01) = .next { withAB 0x80 0x01 with x := 0x7F, sr := status false false false false true }
      ∧ exec (.subA 0x2000) (withAB 0x80 0x01) = .next { withAB 0x80 0x01 with
          mem := [(0x2000, 0x7F)], mar := 0x2000, sr := status false false false false true } := ⟨rfl, rfl, rfl⟩

/-- What `AluToReg` and `AluToMem` ask, for the five statements made with them. -/
theorem witness_alu : Reg.sp ≠ Reg.sr ∧ start.writable 0xDFFF := ⟨by decide, rfl⟩
theorem witness_AddCompletes : Reg.sp ≠ Reg.sr ∧ start.writable 0xDFFF := witness_alu
theorem witness_AdcCompletes : Reg.sp ≠ Reg.sr ∧ start.writable 0xDFFF := witness_alu
theorem witness_SubCompletes : Reg.sp ≠ Reg.sr ∧ start.writable 0xDFFF := witness_alu
theorem witness_BitwiseComplete : Reg.sp ≠ Reg.sr ∧ start.writable 0xDFFF := witness_alu
theorem witness_ShiftsComplete : Reg.sp ≠ Reg.sr ∧ start.writable 0xDFFF := witness_alu
theorem witness_MemoryDestinationIsNotRead : Instr.addA ∈ [Instr.addA, .subA, .adcA, .lshA, .rshA, .orA, .andA, .xorA]
    ∧ Instr.xorA ∈ [Instr.addA, .subA, .adcA, .lshA, .rshA, .orA, .andA, .xorA] := by simp

theorem witness_PopUndoesPush : (withSp 0x00 []).writable ((withSp 0x00 []).stackTop 1)
    ∧ (withSp 0xFF []).readable (stackAddr (withSp 0xFF []).cfg.stackPage (withSp 0xFF []).sp) := ⟨rfl, .inl rfl⟩
theorem witness_two_stack_bytes : (withSp 0x01 []).writable ((withSp 0x01 []).stackTop 1)
    ∧ (withSp 0x01 []).writable ((withSp 0x01 []).stackTop 2) := ⟨rfl, rfl⟩
theorem witness_WordsOnStackAreLittleEndian : (withSp 0x01 []).writable ((withSp 0x01 []).stackTop 1)
    ∧ (withSp 0x01 []).writable ((withSp 0x01 []).stackTop 2)
    ∧ (withSp 0xFF []).readable (stackAddr (withSp 0xFF []).cfg.stackPage (withSp 0xFF []).sp)
    ∧ (withSp 0xFF []).readable (stackAddr (withSp 0xFF []).cfg.stackPage ((withSp 0xFF []).sp + 1)) :=
  ⟨rfl, rfl, .inl rfl, .inl rfl⟩
theorem witness_PushCompletes : start.writable (start.stackTop 1) ∧ start.readable 0xE000 := ⟨rfl, .inr rfl⟩
theorem witness_PopCompletes : start.readable (start.stackTop 0) ∧ start.writable 0x0000 := ⟨.inl rfl, rfl⟩
theorem witness_PopSrRestoresPushedFlags : start.writable (start.stackTop 1) := rfl
theorem witness_CallCompletes : (withSp 0x01 []).writable ((withSp 0x01 []).stackTop 1)
    ∧ (withSp 0x01 []).writable ((withSp 0x01 []).stackTop 2) := witness_two_stack_bytes
theorem witness_ReturnsComplete : (withSp 0xFF []).readable ((withSp 0xFF []).stackTop 0)
    ∧ (withSp 0xFF []).readable (stackAddr (withSp 0xFF []).cfg.stackPage ((withSp 0xFF []).sp + 1)) := ⟨.inl rfl, .inl rfl⟩

/-- `start` with an `INT_TARGET` of another shape. -/
def withTarget (t : IntTarget) : State := { start with cfg := { platform with intTarget := t } }

theorem witness_ReturnUndoesCall : start.writable (start.stackTop 1) ∧ start.writable (start.stackTop 2) ∧ start.hasTarget 0xFF :=
  ⟨rfl, rfl, trivial⟩
theorem witness_IntCompletes_entries : start.writable (start.stackTop 1) ∧ start.writable (start.stackTop 2)
    ∧ ∀ n, start.regDelivers .a n → start.hasTarget n := ⟨rfl, rfl, fun _ _ => trivial⟩
theorem witness_IntCompletes_table : (withTarget (.table 0x4000)).writable ((withTarget (.table 0x4000)).stackTop 1)
    ∧ (withTarget (.table 0x4000)).writable ((withTarget (.table 0x4000)).stackTop 2)
    ∧ (withTarget (.table 0x4000)).hasTarget 0x00 ∧ (withTarget (.table 0x4000)).hasTarget 0xFF :=
  ⟨rfl, rfl, ⟨.inl rfl, .inl rfl⟩, .inl rfl, .inl rfl⟩
theorem witness_IntCompletes_uninterpreted : (withTarget .uninterpreted).writable ((withTarget .uninterpreted).stackTop 1)
    ∧ (withTarget .uninterpreted).writable ((withTarget .uninterpreted).stackTop 2)
    ∧ (withTarget .uninterpreted).hasTarget 0x21 := ⟨rfl, rfl, trivial⟩
theorem witness_IntWithoutTargetIsRefused : (withTarget .absent).cfg.intTarget = .absent := rfl
theorem witness_HltCompletes : (atByte 0xFF).halted = false ∧ (atByte 0xFF).readable (atByte 0xFF).pc
    ∧ (atByte 0xFF).peek (atByte 0xFF).pc = some 0xFF := ⟨rfl, .inl rfl, rfl⟩

end Sys2Proof.Tests
end

section
/-! SUPPORT. Bytes and addresses in numbers (`00_scope.md` rule R8, `43_stack.md` rule R190). -/

namespace Sys2Proof

@[simp] theorem joinBytes_toNat (lo hi : Byte) : (joinBytes lo hi).toNat = hi.toNat * 256 + lo.toNat :=
  calc (hi ++ lo).toNat
    _ = hi.toNat <<< 8 ||| lo.toNat := BitVec.toNat_append hi lo
    _ = hi.toNat <<< 8 + lo.toNat := (Nat.shiftLeft_add_eq_or_of_lt lo.isLt _).symm
    _ = hi.toNat * 256 + lo.toNat := by rw [Nat.shiftLeft_eq]

@[simp] theorem lowByte_toNat (v : Addr) : (lowByte v).toNat = v.toNat % 256 := by
  rw [lowByte, BitVec.extractLsb'_toNat, Nat.shiftRight_zero]

/-- The quotient is below 256, so cutting it to a byte loses nothing. -/
@[simp] theorem highByte_toNat (v : Addr) : (highByte v).toNat = v.toNat / 256 := by
  have hlt : v.toNat < 65536 := v.isLt
  rw [highByte, BitVec.extractLsb'_toNat, Nat.shiftRight_eq_div_pow]
  omega

@[simp] theorem Machine.stackAddr_toNat (page sp : Byte) :
    (Machine.stackAddr page sp).toNat = page.toNat * 256 + sp.toNat := joinBytes_toNat sp page

/-- Settles O7: each clause is the number of a byte put beside another or cut out of an address. -/
theorem addressBytesInNumbers : Obligations.AddressBytesInNumbers :=
  ⟨joinBytes_toNat, fun v => ⟨lowByte_toNat v, highByte_toNat v⟩, Machine.stackAddr_toNat⟩

end Sys2Proof
end

section
/-! SUPPORT. The kinds of change that make up a step, said once. An invariant of every step follows by induction on `Effect`:
that it holds after a change of registers, after a store to ram, and after one change upon another. -/

namespace Sys2Proof.Machine

/-- `t` comes from `s` by changes of registers (the halt latch, MAR and the counter of free values among them) and stores to
bytes that `MEM_MAP` makes ram (rules R20, R64, R69). -/
inductive Effect : State → State → Prop where
  | regs {s t : State} (cfg : t.cfg = s.cfg) (mem : t.mem = s.mem) : Effect s t
  | store {s : State} {adr : Addr} (v : Byte) (ram : s.writable adr) : Effect s { s with mem := s.mem.write adr v }
  | trans {s t u : State} (first : Effect s t) (rest : Effect t u) : Effect s u

theorem Effect.cfg_eq {s t : State} (h : Effect s t) : t.cfg = s.cfg := by
  induction h with
  | regs cfg _ => exact cfg
  | store _ _ => rfl
  | trans _ _ ih1 ih2 => exact ih2.trans ih1

/-! ### The shared operations -/

section Ops
variable {s t : State} {v : Byte} {target adr : Addr} {src : Source} {dest : Dest}

theorem memWrite_effect (h : memWrite adr v s = .next t) : Effect s t := by
  obtain ⟨ram, rfl⟩ := memWrite_eq_next.1 h
  exact (Effect.store v ram).trans (.regs rfl rfl)

theorem readSource_effect (h : readSource src s = .next (v, t)) : Effect s t := by
  obtain ⟨m, d, rfl⟩ := readSource_next h
  exact .regs rfl rfl

theorem writeDest_effect (h : writeDest dest v s = .next t) : Effect s t := by
  cases dest with
  | reg r => cases h; exact .regs (writeReg_cfg v s r) (writeReg_mem v s r)
  | mem adr => exact memWrite_effect h

theorem move_effect (h : move dest src s = .next t) : Effect s t := by
  obtain ⟨v, s1, hread, hwrite⟩ := move_next h
  exact (readSource_effect hread).trans (writeDest_effect hwrite)

theorem aluWrite_effect {flags : Status} (h : aluWrite dest v flags s = .next t) : Effect s t :=
  Effect.trans (t := { s with sr := flags }) (.regs rfl rfl) (writeDest_effect (aluWrite_next h).2)

theorem shiftWrite_effect (h : shiftWrite dest v s = .next t) : Effect s t :=
  Effect.trans (t := { s with draws := s.draws + 1 }) (.regs rfl rfl) (aluWrite_effect h)

theorem push8_effect (h : push8 v s = .next t) : Effect s t :=
  Effect.trans (t := { s with sp := s.sp - 1 }) (.regs rfl rfl) (memWrite_effect h)

theorem push16_effect (h : push16 target s = .next t) : Effect s t := by
  obtain ⟨s1, hhigh, hlow⟩ := andThen_eq_next.1 h
  exact (push8_effect hhigh).trans (push8_effect hlow)

theorem pop8_effect (h : pop8 s = .next (v, t)) : Effect s t := by
  obtain ⟨-, ⟨d, rfl⟩, -⟩ := pop8_next h
  exact .regs rfl rfl

theorem pop16_effect (h : pop16 s = .next (target, t)) : Effect s t := by
  obtain ⟨-, -, d, -, rfl, -, -⟩ := pop16_next h
  exact .regs rfl rfl

theorem pushSource_effect (h : pushSource src s = .next t) : Effect s t := by
  obtain ⟨v, s1, hread, hpush⟩ := pushSource_next h
  exact (readSource_effect hread).trans (push8_effect hpush)

theorem popDest_effect (h : popDest dest s = .next t) : Effect s t := by
  obtain ⟨v, s1, hpop, hwrite⟩ := popDest_next h
  exact (pop8_effect hpop).trans (writeDest_effect hwrite)

theorem setPc_effect (adr : Addr) (s : State) : Effect s (setPc adr s) := .regs rfl rfl

theorem jumpIf_effect {cond : Bool} (h : jumpIf cond adr s = .next t) : Effect s t := by
  rw [jumpIf_eq] at h
  cases h
  exact .regs rfl rfl

theorem callTo_effect (h : callTo adr s = .next t) : Effect s t := by
  obtain ⟨s1, hpush, rfl⟩ := callTo_next h
  exact (push16_effect hpush).trans (setPc_effect adr s1)

theorem returnFromStack_effect (h : returnFromStack s = .next t) : Effect s t := by
  obtain ⟨v, s1, hpop, rfl⟩ := returnFromStack_next h
  exact (pop16_effect hpop).trans (setPc_effect v s1)

theorem intTarget_effect (h : intTarget v s = .next (target, t)) : Effect s t := by
  obtain ⟨m, d, rfl⟩ := intTarget_next h
  exact .regs rfl rfl

theorem intCall_effect (h : intCall v s = .next t) : Effect s t := by
  obtain ⟨-, s1, w, s2, hpush, htarget, rfl⟩ := intCall_next h
  exact ((push16_effect hpush).trans (intTarget_effect htarget)).trans (setPc_effect w s2)

theorem execIntR_effect {rs : Reg} (h : execIntR rs s = .next t) : Effect s t := by
  obtain ⟨⟨n, s1⟩, hread, hcall⟩ := andThen_eq_next.1 h
  exact (readSource_effect hread).trans (intCall_effect hcall)

end Ops

/-! ### Instructions and steps -/

/-- Each instruction is one of the shared operations, or changes registers alone. -/
theorem exec_effect {i : Instr} {s t : State} (h : exec i s = .next t) : Effect s t := by
  cases i with
  | movRR | movRI | movRA | movAR =>
    simp only [exec, execMovRR, execMovRI, execMovRA, execMovAR] at h
    exact move_effect h
  | jmp | jo | jno | js | jns | je | jne | jb | jnb | jbe | ja | jl | jge | jle | jg => exact jumpIf_effect h
  | addR | addA | subR | subA | adcR | adcA | orR | orA | andR | andA | xorR | xorA =>
    simp only [exec, execAddR, execAddA, execSubR, execSubA, execAdcR, execAdcA, execOrR, execOrA, execAndR, execAndA,
      execXorR, execXorA] at h
    exact aluWrite_effect h
  | lshR | lshA | rshR | rshA =>
    simp only [exec, execLshR, execLshA, execRshR, execRshA] at h
    exact shiftWrite_effect h
  | cmp | inc | dec | cli | sei | hlt => cases h; exact .regs rfl rfl
  | callA => exact callTo_effect h
  | ret | iret => exact returnFromStack_effect h
  | pushI | pushR | pushA =>
    simp only [exec, execPushI, execPushR, execPushA] at h
    exact pushSource_effect h
  | popR | popA => exact popDest_effect h
  | intR => exact execIntR_effect h
  | intI => exact intCall_effect h

theorem fetch_effect {i : Instr} {s t : State} (h : fetch s = .next (i, t)) : Effect s t := by
  obtain ⟨f, m, d, rfl⟩ := fetch_next h
  exact .regs rfl rfl

theorem step_effect {s t : State} (h : step s = .next t) : Effect s t := by
  obtain ⟨-, rfl⟩ | ⟨-, i, s1, hfetch, hexec⟩ := step_next h
  · exact .regs rfl rfl
  · exact (fetch_effect hfetch).trans (exec_effect hexec)

/-- Settles O18: a step is made of changes of registers and stores to ram, and none of these touches the parameters. -/
theorem stepKeepsPlatform : Obligations.StepKeepsPlatform := fun _ _ h => (step_effect h).cfg_eq

end Sys2Proof.Machine
end

section
/-! SUPPORT. What an instruction that completes does to the registers, said once: the register it names, and what its kind
changes besides (`10_state.md` rules R21 to R39, R47). The frame of each register follows by cases on `RegChange`. -/

namespace Sys2Proof.Machine

/-- The state with `v` in the named register, or as it is where no register is named. -/
def putReg (dest : Option Reg) (v : Byte) (s : State) : State :=
  { s with
    a := if dest = some .a then v else s.a
    b := if dest = some .b then v else s.b
    x := if dest = some .x then v else s.x
    y := if dest = some .y then v else s.y
    sp := if dest = some .sp then v else s.sp
    sr := if dest = some .sr then Status.ofByte v else s.sr }

/-- The register a destination operand names, if any. -/
def Dest.toReg : Dest → Option Reg
  | .reg r => some r
  | .mem _ => none

section PutReg
variable (dest : Option Reg) (v : Byte) (s : State)

theorem putReg_some (r : Reg) : putReg (some r) v s = writeReg r v s := by cases r <;> rfl

@[simp] theorem putReg_a : (putReg dest v s).a = if dest = some .a then v else s.a := rfl
@[simp] theorem putReg_b : (putReg dest v s).b = if dest = some .b then v else s.b := rfl
@[simp] theorem putReg_x : (putReg dest v s).x = if dest = some .x then v else s.x := rfl
@[simp] theorem putReg_y : (putReg dest v s).y = if dest = some .y then v else s.y := rfl
@[simp] theorem putReg_sp : (putReg dest v s).sp = if dest = some .sp then v else s.sp := rfl
@[simp] theorem putReg_sr : (putReg dest v s).sr = if dest = some .sr then Status.ofByte v else s.sr := rfl
@[simp] theorem putReg_pc : (putReg dest v s).pc = s.pc := rfl
@[simp] theorem putReg_halted : (putReg dest v s).halted = s.halted := rfl

end PutReg

/-- What the instruction `i` does to the registers of `s` where it completes. Memory, MAR and the counter of free values are
left open. -/
inductive RegChange (i : Instr) (s : State) : State → Prop where
  /-- MOV: the named register alone. -/
  | move (v : Byte) (mem : Memory) (mar : Addr) (draws : Nat) (alu : ¬ isAlu i) :
    RegChange i s { putReg (namedDest i) v s with mem := mem, mar := mar, draws := draws }
  /-- An ALU operation but INC and DEC: the flags, and the named register, which is not SR (rules R31, R165). -/
  | alu (v : Byte) (flags : Status) (mem : Memory) (mar : Addr) (draws : Nat) (alu : isAlu i) (sr : namedDest i ≠ some .sr)
      (ie : flags.ie = s.sr.ie) :
    RegChange i s { putReg (namedDest i) v { s with sr := flags } with mem := mem, mar := mar, draws := draws }
  /-- INC and DEC: A and the flags (rules R175, R176). -/
  | accumulator (v : Byte) (flags : Status) (op : i = .inc ∨ i = .dec) (ie : flags.ie = s.sr.ie) :
    RegChange i s { s with a := v, sr := flags }
  /-- PUSH and POP: SP, then the named register (rules R196 to R200). -/
  | stack (v sp : Byte) (mem : Memory) (mar : Addr) (draws : Nat) (stack : usesStack i) (alu : ¬ isAlu i) :
    RegChange i s { putReg (namedDest i) v { s with sp := sp } with mem := mem, mar := mar, draws := draws }
  /-- The jumps: PC alone (rule R140). -/
  | jump (pc : Addr) (transfer : transfersControl i) : RegChange i s { s with pc := pc }
  /-- CALL, RET, INT and IRET: PC and SP (rules R194, R195, R210 to R212). -/
  | call (pc : Addr) (sp : Byte) (mem : Memory) (mar : Addr) (draws : Nat) (transfer : transfersControl i)
      (stack : usesStack i) :
    RegChange i s { s with pc := pc, sp := sp, mem := mem, mar := mar, draws := draws }
  /-- CLI and SEI: IE alone (rules R213, R214). -/
  | enable (ie : Bool) (op : i = .cli ∨ i = .sei) : RegChange i s { s with sr := { s.sr with ie := ie } }
  /-- HLT: the halt latch alone (rule R220). -/
  | halt (op : i = .hlt) : RegChange i s { s with halted := true }

/-! ### The shared operations -/

section Ops
variable {s t : State} {v : Byte} {adr : Addr} {src : Source} {dest : Dest}

theorem writeDest_regs (h : writeDest dest v s = .next t) :
    ∃ mem mar, t = { putReg dest.toReg v s with mem := mem, mar := mar } := by
  obtain ⟨r, rfl, rfl⟩ | ⟨adr, rfl, -, rfl⟩ := writeDest_next h
  · rw [← putReg_some]
    exact ⟨s.mem, s.mar, rfl⟩
  · exact ⟨s.mem.write adr v, adr, rfl⟩

theorem move_regs (h : move dest src s = .next t) :
    ∃ v mem mar d, t = { putReg dest.toReg v s with mem := mem, mar := mar, draws := d } := by
  obtain ⟨v, s1, hread, hwrite⟩ := move_next h
  obtain ⟨m, d, rfl⟩ := readSource_next hread
  obtain ⟨mem, mar, rfl⟩ := writeDest_regs hwrite
  exact ⟨v, mem, mar, d, rfl⟩

/-- Whatever the flags are computed from, an ALU operation with a destination never writes SR but as flags. -/
theorem aluWrite_regs {flags : Status} (h : aluWrite dest v flags s = .next t) :
    dest.toReg ≠ some .sr
      ∧ ∃ mem mar, t = { putReg dest.toReg v { s with sr := flags } with mem := mem, mar := mar } := by
  obtain ⟨hne, hwrite⟩ := aluWrite_next h
  refine ⟨fun hsr => hne ?_, writeDest_regs hwrite⟩
  cases dest with
  | reg r => cases hsr; rfl
  | mem adr => cases hsr

theorem pushSource_regs (h : pushSource src s = .next t) :
    ∃ mem mar d, t = { s with sp := s.sp - 1, mem := mem, mar := mar, draws := d } := by
  obtain ⟨v, s1, hread, hpush⟩ := pushSource_next h
  obtain ⟨m, d, rfl⟩ := readSource_next hread
  obtain ⟨-, rfl⟩ := push8_eq_next.1 hpush
  exact ⟨_, _, d, rfl⟩

theorem popDest_regs (h : popDest dest s = .next t) :
    ∃ v mem mar d, t = { putReg dest.toReg v { s with sp := s.sp + 1 } with mem := mem, mar := mar, draws := d } := by
  obtain ⟨v, s1, hpop, hwrite⟩ := popDest_next h
  obtain ⟨-, ⟨d, rfl⟩, -⟩ := pop8_next hpop
  obtain ⟨mem, mar, rfl⟩ := writeDest_regs hwrite
  exact ⟨v, mem, mar, d, rfl⟩

theorem callTo_regs (h : callTo adr s = .next t) :
    ∃ mem mar, t = { s with pc := adr, sp := s.sp - 2, mem := mem, mar := mar } := by
  obtain ⟨s1, hpush, rfl⟩ := callTo_next h
  obtain ⟨-, -, rfl⟩ := push16_next hpush
  exact ⟨_, _, rfl⟩

theorem returnFromStack_regs (h : returnFromStack s = .next t) :
    ∃ pc mar d, t = { s with pc := pc, sp := s.sp + 2, mar := mar, draws := d } := by
  obtain ⟨pc, s1, hpop, rfl⟩ := returnFromStack_next h
  obtain ⟨-, -, d, -, rfl, -, -⟩ := pop16_next hpop
  exact ⟨pc, _, d, rfl⟩

theorem intCall_regs (h : intCall v s = .next t) :
    ∃ pc mem mar d, t = { s with pc := pc, sp := s.sp - 2, mem := mem, mar := mar, draws := d } := by
  obtain ⟨-, s1, pc, s2, hpush, htarget, rfl⟩ := intCall_next h
  obtain ⟨-, -, rfl⟩ := push16_next hpush
  obtain ⟨mar, d, rfl⟩ := intTarget_next htarget
  exact ⟨pc, _, mar, d, rfl⟩

theorem execIntR_regs {rs : Reg} (h : execIntR rs s = .next t) :
    ∃ pc mem mar d, t = { s with pc := pc, sp := s.sp - 2, mem := mem, mar := mar, draws := d } := by
  obtain ⟨⟨n, s1⟩, hread, hcall⟩ := andThen_eq_next.1 h
  obtain ⟨m, d, rfl⟩ := readSource_next hread
  obtain ⟨pc, mem, mar, d, rfl⟩ := intCall_regs hcall
  exact ⟨pc, mem, mar, d, rfl⟩

/-! ### The operations that several instructions share, as changes; `named` ties the operand to the instruction -/

section Changes
variable {i : Instr}

theorem regChange_of_move (h : move dest src s = .next t) (named : namedDest i = dest.toReg) (alu : ¬ isAlu i) :
    RegChange i s t := by
  obtain ⟨v, mem, mar, d, rfl⟩ := move_regs h
  rw [← named]
  exact .move v mem mar d alu

theorem regChange_of_aluWrite {flags : Status} (h : aluWrite dest v flags s = .next t) (named : namedDest i = dest.toReg)
    (alu : isAlu i) (ie : flags.ie = s.sr.ie) : RegChange i s t := by
  obtain ⟨hsr, mem, mar, rfl⟩ := aluWrite_regs h
  rw [← named] at hsr ⊢
  exact .alu v flags mem mar s.draws alu hsr ie

theorem regChange_of_shiftWrite (h : shiftWrite dest v s = .next t) (named : namedDest i = dest.toReg) (alu : isAlu i) :
    RegChange i s t := by
  obtain ⟨hsr, mem, mar, rfl⟩ := aluWrite_regs h
  rw [← named] at hsr ⊢
  exact .alu v (flagsShift v s.draws s.sr) mem mar (s.draws + 1) alu hsr rfl

theorem regChange_of_pushSource (h : pushSource src s = .next t) (named : namedDest i = none) (stack : usesStack i)
    (alu : ¬ isAlu i) : RegChange i s t := by
  obtain ⟨mem, mar, d, rfl⟩ := pushSource_regs h
  have hput := RegChange.stack (i := i) (s := s) 0 (s.sp - 1) mem mar d stack alu
  rwa [named] at hput

theorem regChange_of_popDest (h : popDest dest s = .next t) (named : namedDest i = dest.toReg) (stack : usesStack i)
    (alu : ¬ isAlu i) : RegChange i s t := by
  obtain ⟨v, mem, mar, d, rfl⟩ := popDest_regs h
  rw [← named]
  exact .stack v _ mem mar d stack alu

theorem regChange_of_returnFromStack (h : returnFromStack s = .next t) (transfer : transfersControl i)
    (stack : usesStack i) : RegChange i s t := by
  obtain ⟨pc, mar, d, rfl⟩ := returnFromStack_regs h
  exact .call pc _ s.mem mar d transfer stack

end Changes

end Ops

/-- Each instruction is one of the shared operations, which its kind in the tables of rules R31, R37 and R47 says. -/
theorem exec_regChange {i : Instr} {s t : State} (h : exec i s = .next t) : RegChange i s t := by
  cases i with
  | movRR | movRI | movRA | movAR =>
    simp only [exec, execMovRR, execMovRI, execMovRA, execMovAR] at h
    exact regChange_of_move h rfl id
  | jmp | jo | jno | js | jns | je | jne | jb | jnb | jbe | ja | jl | jge | jle | jg =>
    obtain rfl := Host.Outcome.next.inj ((jumpIf_eq _ _ _).symm.trans h)
    exact .jump _ trivial
  | addR | addA | subR | subA | adcR | adcA | orR | orA | andR | andA | xorR | xorA =>
    simp only [exec, execAddR, execAddA, execSubR, execSubA, execAdcR, execAdcA, execOrR, execOrA, execAndR, execAndA,
      execXorR, execXorA] at h
    exact regChange_of_aluWrite h rfl trivial rfl
  | lshR | lshA | rshR | rshA =>
    simp only [exec, execLshR, execLshA, execRshR, execRshA] at h
    exact regChange_of_shiftWrite h rfl trivial
  | cmp =>
    cases h
    exact RegChange.alu (i := .cmp) 0 (flagsSub s.a s.b s.sr) s.mem s.mar s.draws trivial (by simp [namedDest]) rfl
  | inc => cases h; exact .accumulator _ _ (.inl rfl) rfl
  | dec => cases h; exact .accumulator _ _ (.inr rfl) rfl
  | callA =>
    obtain ⟨mem, mar, rfl⟩ := callTo_regs h
    exact .call _ _ mem mar s.draws trivial trivial
  | ret | iret => exact regChange_of_returnFromStack h trivial trivial
  | pushI | pushR | pushA =>
    simp only [exec, execPushI, execPushR, execPushA] at h
    exact regChange_of_pushSource h rfl trivial id
  | popR | popA =>
    simp only [exec, execPopR, execPopA] at h
    exact regChange_of_popDest h rfl trivial id
  | intR =>
    obtain ⟨pc, mem, mar, d, rfl⟩ := execIntR_regs h
    exact .call pc _ mem mar d trivial trivial
  | intI =>
    obtain ⟨pc, mem, mar, d, rfl⟩ := intCall_regs h
    exact .call pc _ mem mar d trivial trivial
  | cli => cases h; exact .enable false (.inl rfl)
  | sei => cases h; exact .enable true (.inr rfl)
  | hlt => cases h; exact .halt rfl

/-! ### The frame of each register -/

/-- Settles O22: the changes that reach A, B, X or Y are the named register's, and for A those of INC and DEC. -/
theorem registersChangeOnlyAsDestination : Obligations.RegistersChangeOnlyAsDestination := by
  intro i s t h
  cases exec_regChange h with
  | move | alu | stack =>
    exact ⟨fun ha _ _ => by simp [ha], fun hb => by simp [hb], fun hx => by simp [hx], fun hy => by simp [hy]⟩
  | accumulator v flags op _ =>
    exact ⟨fun _ hinc hdec => absurd op (not_or.2 ⟨hinc, hdec⟩), fun _ => rfl, fun _ => rfl, fun _ => rfl⟩
  | jump | call | enable | halt => exact ⟨fun _ _ _ => rfl, fun _ => rfl, fun _ => rfl, fun _ => rfl⟩

/-- Settles O23: where the instruction does not use the stack, only the named register's change can reach SP. -/
theorem spChangesOnlyByStackOrName : Obligations.SpChangesOnlyByStackOrName := by
  intro i s t h hstack hname
  cases exec_regChange h with
  | move | alu => simp [hname]
  | stack _ _ _ _ _ stack => exact absurd stack hstack
  | call _ _ _ _ _ _ stack => exact absurd stack hstack
  | accumulator | jump | enable | halt => rfl

/-- Settles O24: an ALU operation writes the four flags alone, SR is no destination of it, and INC and DEC are two of them; of
the other changes only a named SR's and that of CLI and SEI reach SR, and the latter reach IE alone. -/
theorem flagsChangeOnlyByAluOrSr : Obligations.FlagsChangeOnlyByAluOrSr := by
  intro i s t h
  cases exec_regChange h with
  | move _ _ _ _ alu => exact ⟨fun _ hname => by simp [hname], fun hi => absurd hi alu⟩
  | stack _ _ _ _ _ _ alu => exact ⟨fun _ hname => by simp [hname], fun hi => absurd hi alu⟩
  | alu _ _ _ _ _ alu sr ie => exact ⟨fun hi => absurd alu hi, fun _ => by simp [sr, ie]⟩
  | accumulator _ _ op ie =>
    have alu : isAlu i := by obtain rfl | rfl := op <;> trivial
    exact ⟨fun hi => absurd alu hi, fun _ => ie⟩
  | jump | call | halt => exact ⟨fun _ _ => ⟨rfl, rfl, rfl, rfl⟩, fun _ => rfl⟩
  | enable _ op =>
    have alu : ¬ isAlu i := by obtain rfl | rfl := op <;> exact id
    exact ⟨fun _ _ => ⟨rfl, rfl, rfl, rfl⟩, fun hi => absurd hi alu⟩

/-- Settles O26: only the changes of a transfer reach PC. -/
theorem pcWrittenOnlyByTransfers : Obligations.PcWrittenOnlyByTransfers := by
  intro i s t h htransfer
  cases exec_regChange h with
  | jump _ transfer => exact absurd transfer htransfer
  | call _ _ _ _ _ transfer => exact absurd transfer htransfer
  | move | alu | accumulator | stack | enable | halt => rfl

/-- HLT alone sets the halt latch, and no instruction clears it (rules R39, R220). -/
theorem exec_halted_iff {i : Instr} {s t : State} (h : exec i s = .next t) :
    t.halted = true ↔ s.halted = true ∨ i = .hlt := by
  by_cases hi : i = .hlt
  · subst hi
    cases h
    simp
  · have keeps : t.halted = s.halted := by
      cases exec_regChange h with
      | halt op => exact absurd op hi
      | move | alu | accumulator | stack | jump | call | enable => rfl
    simp [keeps, hi]

end Sys2Proof.Machine
end

section
/-! SUPPORT. The launch of a run, and MAR, which no instruction reads (`10_state.md` rules R38, R44). -/

namespace Sys2Proof.Machine

theorem default_wf : Config.default.wf = true := by decide

theorem launch_inv {c : Config} {image : Memory} (hc : c.wf = true) (himage : image.wf = true) :
    (State.launch c image).Inv := ⟨himage, hc⟩

/-- Settles O17: a launch holds the image and the parameters it is given, and those of the reset state are well formed. -/
theorem launchMeetsInv : Obligations.LaunchMeetsInv :=
  ⟨launch_inv default_wf reset_mem_wf, fun _ _ hc himage => launch_inv hc himage⟩

/-- Settles O58: the fields of a launch, and those of the launch that is the reset state. -/
theorem launchState : Obligations.LaunchState :=
  ⟨fun c image => ⟨launch_pc c image, launch_halted c image, launch_mem c image, launch_cfg c image⟩,
    rfl, launch_pc Config.default [], rfl, rfl, rfl, rfl, rfl, rfl⟩

section Mar
variable (adr m : Addr) (s : State)

/-- A read leaves MAR at its own address, whatever it held before. -/
theorem loadByte_of_mar : loadByte adr { s with mar := m } = loadByte adr s := rfl

theorem memRead_of_mar : memRead adr { s with mar := m } = memRead adr s := by
  rw [memRead, memRead, loadByte_of_mar]

theorem fetchByte_of_mar : fetchByte { s with mar := m } = fetchByte s := by
  rw [fetchByte, fetchByte, memRead_of_mar]

theorem fetch_of_mar : fetch { s with mar := m } = fetch s := by
  rw [fetch, fetch, fetchByte_of_mar]

end Mar

theorem step_of_running {s : State} (running : s.halted = false) :
    step s = andThen (fetch s) fun d => exec d.1 d.2 := by simp [step, running]

/-- Settles O20: a running machine's step begins with the read of the opcode byte, and that read overwrites MAR. -/
theorem marIsInvisible : Obligations.MarIsInvisible := by
  intro s m running
  rw [step_of_running running, step_of_running (s := { s with mar := m }) running, fetch_of_mar]

end Sys2Proof.Machine
end

section
/-! SUPPORT. Runs (`70_reset_and_hazards.md` rule R266): where a run stands after some steps, said by the states it reaches. -/

namespace Sys2Proof.Machine

/-- What the states reached from `s` say of how the run stands. -/
def Progress.ReachedFrom (s : State) : Progress → Prop
  | .ended f => Reaches s f ∧ f.halted = true
  | .running t => Reaches s t ∧ t.halted = false
  | .fault e => ∃ t, Reaches s t ∧ t.halted = false ∧ step t = .fault e
  | .refused e => ∃ t, Reaches s t ∧ t.halted = false ∧ step t = .refused e

theorem Progress.ReachedFrom.after {s t : State} (running : s.halted = false) (first : step s = .next t) {p : Progress}
    (h : p.ReachedFrom t) : p.ReachedFrom s := by
  cases p with
  | ended f => exact ⟨.after running first h.1, h.2⟩
  | running u => exact ⟨.after running first h.1, h.2⟩
  | fault e =>
    obtain ⟨u, reaches, stop⟩ := h
    exact ⟨u, .after running first reaches, stop⟩
  | refused e =>
    obtain ⟨u, reaches, stop⟩ := h
    exact ⟨u, .after running first reaches, stop⟩

theorem runFor_reachedFrom (n : Nat) (s : State) : (runFor n s).ReachedFrom s := by
  induction n generalizing s with
  | zero =>
    cases hs : s.halted
    · rw [runFor_zero_of_running hs]
      exact ⟨.here s, hs⟩
    · rw [runFor_of_halted hs]
      exact ⟨.here s, hs⟩
  | succ n ih =>
    cases hs : s.halted
    · cases ht : step s with
      | next t => rw [runFor_succ_of_next hs ht]; exact (ih t).after hs ht
      | fault e => rw [runFor_succ_of_fault hs ht]; exact ⟨s, .here s, hs, ht⟩
      | refused e => rw [runFor_succ_of_refused hs ht]; exact ⟨s, .here s, hs, ht⟩
    · rw [runFor_of_halted hs]
      exact ⟨.here s, hs⟩

/-- After the steps that reach `t`, the run from `s` goes on as the run from `t`. -/
theorem Reaches.runFor_add {s t : State} (h : Reaches s t) : ∃ n, ∀ k, runFor (n + k) s = runFor k t := by
  induction h with
  | here s => exact ⟨0, fun k => by rw [Nat.zero_add]⟩
  | after running first _ ih =>
    obtain ⟨n, hn⟩ := ih
    exact ⟨n + 1, fun k => by rw [Nat.add_right_comm, runFor_succ_of_next running first, hn]⟩

/-- Once a run has ended or stopped, it stands the same whatever the number of steps allowed. -/
theorem runFor_settled_unique {n m : Nat} {s : State} {p q : Progress} (hp : runFor n s = p) (hq : runFor m s = q)
    (settledP : ∀ t, p ≠ .running t) (settledQ : ∀ t, q ≠ .running t) : p = q :=
  calc p
    _ = runFor (n + m) s := (runFor_settled hp settledP).symm
    _ = runFor (m + n) s := by rw [Nat.add_comm]
    _ = q := runFor_settled hq settledQ

/-! ### The end of a run, a stop, and a hang -/

section Ends
variable {s f g : State}

theorem endsIn_iff : EndsIn s f ↔ Reaches s f ∧ f.halted = true := by
  constructor
  · rintro ⟨n, hn⟩
    have h := runFor_reachedFrom n s
    rwa [hn] at h
  · rintro ⟨reaches, halted⟩
    obtain ⟨n, hn⟩ := reaches.runFor_add
    exact ⟨n, (hn 0).trans (runFor_of_halted halted 0)⟩

theorem endsIn_unique (hf : EndsIn s f) (hg : EndsIn s g) : f = g := by
  obtain ⟨n, hn⟩ := hf
  obtain ⟨m, hm⟩ := hg
  exact Progress.ended.inj (runFor_settled_unique hn hm (by simp) (by simp))

theorem breaks_iff : Breaks s ↔ ∃ t, Reaches s t ∧ t.halted = false ∧ ∀ u, step t ≠ .next u := by
  constructor
  · rintro ⟨n, ⟨e, he⟩ | ⟨e, he⟩⟩
    all_goals
      have h := runFor_reachedFrom n s
      rw [he] at h
      obtain ⟨t, reaches, running, stop⟩ := h
      exact ⟨t, reaches, running, by simp [stop]⟩
  · rintro ⟨t, reaches, running, stop⟩
    obtain ⟨n, hn⟩ := reaches.runFor_add
    refine ⟨n + 1, ?_⟩
    cases ht : step t with
    | next u => exact absurd ht (stop u)
    | fault e => exact .inl ⟨e, (hn 1).trans (runFor_succ_of_fault running ht 0)⟩
    | refused e => exact .inr ⟨e, (hn 1).trans (runFor_succ_of_refused running ht 0)⟩

theorem not_endsIn_and_breaks : ¬ ((∃ f, EndsIn s f) ∧ Breaks s) := by
  rintro ⟨⟨f, n, hn⟩, m, ⟨e, he⟩ | ⟨e, he⟩⟩
  all_goals cases runFor_settled_unique hn he (by simp) (by simp)

theorem not_endsIn_and_hangs : ¬ ((∃ f, EndsIn s f) ∧ Hangs s) := by
  rintro ⟨⟨f, n, hn⟩, hangs⟩
  obtain ⟨t, ht⟩ := hangs n
  cases hn.symm.trans ht

theorem not_breaks_and_hangs : ¬ (Breaks s ∧ Hangs s) := by
  rintro ⟨⟨n, ⟨e, he⟩ | ⟨e, he⟩⟩, hangs⟩
  all_goals
    obtain ⟨t, ht⟩ := hangs n
    cases he.symm.trans ht

theorem ends_or_breaks_or_hangs (s : State) : (∃ f, EndsIn s f) ∨ Breaks s ∨ Hangs s := by
  by_cases hangs : Hangs s
  · exact .inr (.inr hangs)
  · obtain ⟨n, hn⟩ := not_forall.1 hangs
    cases h : runFor n s with
    | ended f => exact .inl ⟨f, n, h⟩
    | running t => exact absurd ⟨t, h⟩ hn
    | fault e => exact .inr (.inl ⟨n, .inl ⟨e, h⟩⟩)
    | refused e => exact .inr (.inl ⟨n, .inr ⟨e, h⟩⟩)

/-- A run hangs where it neither ends nor stops, and each of these is said by the states it reaches. -/
theorem hangs_iff : Hangs s ↔ ∀ t, Reaches s t → t.halted = false ∧ ∃ u, step t = .next u := by
  constructor
  · intro hangs t reaches
    have running : t.halted = false := by
      by_contra halted
      exact not_endsIn_and_hangs ⟨⟨t, endsIn_iff.2 ⟨reaches, by simpa using halted⟩⟩, hangs⟩
    refine ⟨running, ?_⟩
    by_contra stop
    exact not_breaks_and_hangs ⟨breaks_iff.2 ⟨t, reaches, running, not_exists.1 stop⟩, hangs⟩
  · intro goesOn
    obtain ⟨f, ends⟩ | breaks | hangs := ends_or_breaks_or_hangs s
    · obtain ⟨reaches, halted⟩ := endsIn_iff.1 ends
      simp [(goesOn f reaches).1] at halted
    · obtain ⟨t, reaches, -, stop⟩ := breaks_iff.1 breaks
      obtain ⟨-, u, hu⟩ := goesOn t reaches
      exact absurd hu (stop u)
    · exact hangs

/-- A machine that a step halts has fetched and executed HLT. -/
theorem step_halts {t : State} (running : s.halted = false) (h : step s = .next t) (halted : t.halted = true) :
    ∃ s1, fetch s = .next (.hlt, s1) ∧ t = { s1 with halted := true } := by
  obtain ⟨hs, -⟩ | ⟨-, i, s1, hfetch, hexec⟩ := step_next h
  · exact absurd (hs.symm.trans running) (by decide)
  · have hs1 : s1.halted = false := by
      obtain ⟨f, m, d, rfl⟩ := fetch_next hfetch
      exact running
    obtain hs1' | rfl := (exec_halted_iff hexec).1 halted
    · exact absurd (hs1'.symm.trans hs1) (by decide)
    · exact ⟨s1, hfetch, (Host.Outcome.next.inj hexec).symm⟩

theorem Reaches.eq_of_halted {t : State} (h : Reaches s t) (halted : s.halted = true) : t = s := by
  cases h with
  | here => rfl
  | after running => exact absurd (halted.symm.trans running) (by decide)

/-- The last step of a run from a running machine to a halted state executed HLT. -/
theorem Reaches.last_is_hlt (h : Reaches s f) (running : s.halted = false) (halted : f.halted = true) :
    ∃ t s1, Reaches s t ∧ t.halted = false ∧ fetch t = .next (.hlt, s1) ∧ f = { s1 with halted := true } := by
  induction h with
  | here s => exact absurd (halted.symm.trans running) (by decide)
  | @after s t f _ first rest ih =>
    cases ht : t.halted with
    | true =>
      obtain rfl := rest.eq_of_halted ht
      obtain ⟨s1, hfetch, hf⟩ := step_halts running first halted
      exact ⟨s, s1, .here s, running, hfetch, hf⟩
    | false =>
      obtain ⟨u, s1, reaches, hlt⟩ := ih ht halted
      exact ⟨u, s1, .after running first reaches, hlt⟩

end Ends

/-! ### What a run hands back -/

theorem eq_handBack_iff {r : HandedBack} {f : State} : r = handBack f ↔
    r.a = f.a ∧ r.b = f.b ∧ r.x = f.x ∧ r.y = f.y ∧ r.sp = f.sp ∧ r.sr = f.sr ∧ r.pc = f.pc ∧ r.mem = f.mem := by
  cases r
  simp [handBack]

theorem runHandsBack_iff {c : Config} {image : Memory} {r : HandedBack} : RunHandsBack c image r ↔
    ∃ s f : State, s.pc = c.resetPc ∧ s.halted = false ∧ s.mem = image ∧ s.cfg = c ∧ Reaches s f ∧ f.halted = true
      ∧ r.a = f.a ∧ r.b = f.b ∧ r.x = f.x ∧ r.y = f.y ∧ r.sp = f.sp ∧ r.sr = f.sr ∧ r.pc = f.pc ∧ r.mem = f.mem := by
  simp only [RunHandsBack, IsLaunch, endsIn_iff, eq_handBack_iff, and_assoc]

/-- Settles O27: HLT alone sets the halt latch; a run's end, its stop and its hang are the states it reaches, and they exclude
each other; what a run hands back is read off its final state. -/
theorem onlyHltHalts : Obligations.OnlyHltHalts := by
  refine ⟨fun i s t => exec_halted_iff, fun s => ⟨fun f => endsIn_iff, fun f g => endsIn_unique, ?_, breaks_iff,
    hangs_iff, ends_or_breaks_or_hangs s, not_endsIn_and_breaks, not_endsIn_and_hangs, not_breaks_and_hangs⟩,
    fun c image r => runHandsBack_iff⟩
  intro f running ends
  obtain ⟨reaches, halted⟩ := endsIn_iff.1 ends
  exact reaches.last_is_hlt running halted

end Sys2Proof.Machine
end

section
/-! SUPPORT. What a step does to memory as a whole: it keeps the canonical form, and touches only what `MEM_MAP` makes ram
(`20_memory.md` rules R60, R69). Both follow from the kinds of change that make up a step. -/

namespace Sys2Proof.Machine

theorem Effect.mem_wf {s t : State} (h : Effect s t) (wf : s.mem.wf = true) : t.mem.wf = true := by
  induction h with
  | regs _ mem => rwa [mem]
  | store v _ => exact Memory.wf_write wf _ v
  | trans _ _ ih1 ih2 => exact ih2 (ih1 wf)

/-- Settles O16: registers lie outside the invariant, a store keeps the canonical form, and the parameters stay. -/
theorem stepKeepsInv : Obligations.StepKeepsInv := by
  intro s t ⟨wf, admissible⟩ h
  have effect := step_effect h
  exact ⟨effect.mem_wf wf, by rwa [effect.cfg_eq]⟩

theorem Effect.peek_of_not_writable {s t : State} {adr : Addr} (h : Effect s t) (closed : ¬ s.writable adr) :
    t.peek adr = s.peek adr := by
  induction h with
  | regs _ mem => rw [State.peek, mem, State.peek]
  | store v ram => exact Memory.read_write_other _ v fun same => closed (same ▸ ram)
  | trans first _ ih1 ih2 =>
    have closed_between := closed
    rw [State.writable, ← first.cfg_eq] at closed_between
    exact (ih2 closed_between).trans (ih1 closed)

/-- Settles O19: the only change of memory in a step is a store to ram, and what is ram stays the same throughout. -/
theorem onlyRamChanges : Obligations.OnlyRamChanges := fun _ _ _ h closed => (step_effect h).peek_of_not_writable closed

end Sys2Proof.Machine
end

section
/-! SUPPORT. The shared operation that each instruction is, said once with the stores the table of rule R77 gives it. What an
instruction stores, and why it stops, follow by cases on `ExecForm`. -/

namespace Sys2Proof.Machine

/-- The bytes of memory a destination operand stands for. -/
def Dest.stores : Dest → List Addr
  | .reg _ => []
  | .mem adr => [adr]

/-- What the instruction `i` answers in `s`, as one of the shared operations. -/
inductive ExecForm (i : Instr) (s : State) : Res State → Prop where
  /-- MOV (rules R130 to R133). -/
  | move (dest : Dest) (src : Source) (stores : storedTo s i = dest.stores) : ExecForm i s (move dest src s)
  /-- An ALU operation with a destination; a shift has drawn CF and OF (rules R163, R164). -/
  | alu (dest : Dest) (res : Byte) (flags : Status) (draws : Nat) (alu : isAlu i) (named : namedDest i = dest.toReg)
      (stores : storedTo s i = dest.stores) : ExecForm i s (aluWrite dest res flags { s with draws := draws })
  /-- PUSH (rules R196 to R198). -/
  | push (src : Source) (stores : storedTo s i = [s.stackTop 1]) : ExecForm i s (pushSource src s)
  /-- POP (rules R199, R200). -/
  | pop (dest : Dest) (stores : storedTo s i = dest.stores) : ExecForm i s (popDest dest s)
  /-- CALL (rule R194). -/
  | call (adr : Addr) (stores : storedTo s i = [s.stackTop 1, s.stackTop 2]) : ExecForm i s (callTo adr s)
  /-- RET and IRET (rules R195, R212). -/
  | ret (stores : storedTo s i = []) : ExecForm i s (returnFromStack s)
  /-- INT; a read of SR has drawn its three free bits (rules R32, R210, R211). -/
  | int (n : Byte) (draws : Nat) (op : (∃ n, i = .intI n) ∨ ∃ rs, i = .intR rs)
      (stores : storedTo s i = [s.stackTop 1, s.stackTop 2]) : ExecForm i s (intCall n { s with draws := draws })
  /-- An instruction that accesses no memory, and so completes. -/
  | regs (t : State) (mem : t.mem = s.mem) (stores : storedTo s i = []) : ExecForm i s (.next t)

theorem jumpIf_form {i : Instr} {s : State} {cond : Bool} {adr : Addr} (stores : storedTo s i = []) :
    ExecForm i s (jumpIf cond adr s) := by
  rw [jumpIf_eq]
  exact .regs _ rfl stores

/-- A read of a register delivers its value; of SR, its five bits (rules R32, R33). -/
theorem readReg_delivers (r : Reg) (s : State) : s.regDelivers r (readReg r s).1 := by
  cases r with
  | a | b | x | y | sp => rfl
  | sr =>
    have same : Status.ofByte (readReg .sr s).1 = s.sr := ofByte_toByte s.sr _
    exact ⟨congrArg Status.ie same, congrArg Status.of same, congrArg Status.sf same, congrArg Status.zf same,
      congrArg Status.cf same⟩

/-- `INT reg` is the entry into the handler whose number the register delivers (rule R210). -/
theorem exec_intR (rs : Reg) (s : State) :
    ∃ n draws, s.regDelivers rs n ∧ exec (.intR rs) s = intCall n { s with draws := draws } := by
  obtain ⟨draws, after⟩ := readReg_state rs s
  exact ⟨(readReg rs s).1, draws, readReg_delivers rs s, congrArg (intCall (readReg rs s).1) after⟩

theorem exec_form (i : Instr) (s : State) : ExecForm i s (exec i s) := by
  cases i with
  | movRR rd rs => exact .move (.reg rd) (.reg rs) rfl
  | movRI rd imm => exact .move (.reg rd) (.imm imm) rfl
  | movRA rd adr => exact .move (.reg rd) (.mem adr) rfl
  | movAR adr rs => exact .move (.mem adr) (.reg rs) rfl
  | jmp | jo | jno | js | jns | je | jne | jb | jnb | jbe | ja | jl | jge | jle | jg => exact jumpIf_form rfl
  | addR rd | subR rd | adcR rd | lshR rd | rshR rd | orR rd | andR rd | xorR rd =>
    exact .alu (.reg rd) _ _ _ trivial rfl rfl
  | addA adr | subA adr | adcA adr | lshA adr | rshA adr | orA adr | andA adr | xorA adr =>
    exact .alu (.mem adr) _ _ _ trivial rfl rfl
  | cmp | inc | dec | cli | sei | hlt => exact .regs _ rfl rfl
  | callA adr => exact .call adr rfl
  | ret | iret => exact .ret rfl
  | pushI imm => exact .push (.imm imm) rfl
  | pushR rs => exact .push (.reg rs) rfl
  | pushA adr => exact .push (.mem adr) rfl
  | popR rd => exact .pop (.reg rd) rfl
  | popA adr => exact .pop (.mem adr) rfl
  | intR rs =>
    obtain ⟨n, draws, -, called⟩ := exec_intR rs s
    rw [called]
    exact .int n draws (.inr ⟨rs, rfl⟩) rfl
  | intI imm => exact .int imm s.draws (.inl ⟨imm, rfl⟩) rfl

end Sys2Proof.Machine
end

section
/-! SUPPORT. The stores of an instruction that completes (`20_memory.md` rules R69, R77): all of them to ram, and no byte
changes outside them. -/

namespace Sys2Proof.Machine

/-- From `s` to `t` the bytes at `adrs` are stored, each of them ram, and no other byte changes. -/
structure StoresTo (adrs : List Addr) (s t : State) : Prop where
  ram : ∀ adr ∈ adrs, s.writable adr
  frame : SameBytesOutside adrs s t

theorem storesTo_nil {s t : State} (mem : t.mem = s.mem) : StoresTo [] s t :=
  ⟨nofun, fun adr _ => by rw [State.peek, mem, State.peek]⟩

theorem storesTo_one {s t : State} {adr : Addr} {v : Byte} (ram : s.writable adr) (mem : t.mem = s.mem.write adr v) :
    StoresTo [adr] s t where
  ram := List.forall_mem_singleton.2 ram
  frame other outside := by
    rw [State.peek, mem]
    exact Memory.read_write_other _ v (List.ne_of_not_mem_cons outside)

/-- Only the memory of the states counts, and the parameters of the first. -/
theorem StoresTo.congr {adrs : List Addr} {s s1 t t1 : State} (h : StoresTo adrs s1 t1) (cfg : s1.cfg = s.cfg)
    (before : s1.mem = s.mem) (after : t.mem = t1.mem) : StoresTo adrs s t where
  ram adr mem := by rw [State.writable, ← cfg]; exact h.ram adr mem
  frame adr outside := by rw [State.peek, State.peek, ← before, after]; exact h.frame adr outside

theorem StoresTo.trans {xs ys : List Addr} {s t u : State} (first : StoresTo xs s t) (rest : StoresTo ys t u)
    (cfg : t.cfg = s.cfg) : StoresTo (xs ++ ys) s u where
  ram adr mem := by
    obtain hx | hy := List.mem_append.1 mem
    · exact first.ram adr hx
    · rw [State.writable, ← cfg]; exact rest.ram adr hy
  frame adr outside := by
    obtain ⟨hx, hy⟩ := not_or.1 (mt List.mem_append.2 outside)
    exact (rest.frame adr hy).trans (first.frame adr hx)

section Ops
variable {s t : State} {v : Byte} {target : Addr} {dest : Dest}

theorem writeDest_stores (h : writeDest dest v s = .next t) : StoresTo dest.stores s t := by
  obtain ⟨r, rfl, rfl⟩ | ⟨adr, rfl, ram, rfl⟩ := writeDest_next h
  · exact storesTo_nil (writeReg_mem v s r)
  · exact storesTo_one ram rfl

theorem push8_stores (h : push8 v s = .next t) : StoresTo [s.stackTop 1] s t := by
  obtain ⟨ram, rfl⟩ := push8_eq_next.1 h
  exact storesTo_one ram rfl

theorem push16_stores (h : push16 target s = .next t) : StoresTo [s.stackTop 1, s.stackTop 2] s t := by
  obtain ⟨ram1, ram2, rfl⟩ := push16_next h
  exact (storesTo_one (t := { s with mem := s.mem.write (s.stackTop 1) (highByte target) }) ram1 rfl).trans
    (storesTo_one ram2 rfl) rfl

end Ops

/-- The stores of an instruction that completes are those of the table of rule R77. -/
theorem exec_stores {i : Instr} {s t : State} (h : exec i s = .next t) : StoresTo (storedTo s i) s t := by
  have form := exec_form i s
  rw [h] at form
  generalize answer : Host.Outcome.next t = o at form
  cases form with
  | move dest src stores =>
    obtain ⟨v, s1, hread, hwrite⟩ := move_next answer.symm
    obtain ⟨m, d, rfl⟩ := readSource_next hread
    exact stores ▸ (writeDest_stores hwrite).congr rfl rfl rfl
  | alu dest res flags draws _ _ stores =>
    exact stores ▸ (writeDest_stores (aluWrite_next answer.symm).2).congr rfl rfl rfl
  | push src stores =>
    obtain ⟨v, s1, hread, hpush⟩ := pushSource_next answer.symm
    obtain ⟨m, d, rfl⟩ := readSource_next hread
    exact stores ▸ (push8_stores hpush).congr rfl rfl rfl
  | pop dest stores =>
    obtain ⟨v, s1, hpop, hwrite⟩ := popDest_next answer.symm
    obtain ⟨-, ⟨d, rfl⟩, -⟩ := pop8_next hpop
    exact stores ▸ (writeDest_stores hwrite).congr rfl rfl rfl
  | call adr stores =>
    obtain ⟨s1, hpush, rfl⟩ := callTo_next answer.symm
    exact stores ▸ (push16_stores hpush).congr rfl rfl rfl
  | ret stores =>
    obtain ⟨v, s1, hpop, rfl⟩ := returnFromStack_next answer.symm
    obtain ⟨-, -, d, -, rfl, -, -⟩ := pop16_next hpop
    exact stores ▸ storesTo_nil rfl
  | int n draws op stores =>
    obtain ⟨-, s1, w, s2, hpush, htarget, rfl⟩ := intCall_next answer.symm
    obtain ⟨m, d, rfl⟩ := intTarget_next htarget
    exact stores ▸ (push16_stores hpush).congr rfl rfl rfl
  | regs u mem stores =>
    cases answer
    exact stores ▸ storesTo_nil mem

/-- Settles O14: a store to an address that is not ram stops the instruction. -/
theorem completedStoresWereToRam : Obligations.CompletedStoresWereToRam := fun _ _ _ h => (exec_stores h).ram

/-- Settles O21: a byte outside the table's addresses is outside every store that the instruction makes. -/
theorem storesOnlyWhereTabled : Obligations.StoresOnlyWhereTabled := fun _ _ _ h => (exec_stores h).frame

end Sys2Proof.Machine
end

section
/-! SUPPORT. Why an instruction stops: each shared operation, and from them every instruction, stops only where `MEM_MAP`, SR as
the destination of an ALU operation, or a missing `INT_TARGET` is the cause (rules R69, R165, R215, R231). -/

namespace Sys2Proof.Machine

/-- `o` stops, if at all, at an address that `MEM_MAP` stops: an absent one, a device's, or rom among the stores `adrs`. -/
structure StopsByMap {α : Type} (c : Config) (adrs : List Addr) (o : Res α) : Prop where
  fault : ∀ e, o = .fault e →
    (∃ adr, e = .absentMemory adr ∧ kindAt c.memMap adr = .absent)
      ∨ ∃ adr, e = .writeToRom adr ∧ kindAt c.memMap adr = .rom ∧ adr ∈ adrs
  refused : ∀ e, o = .refused e → ∃ adr, e = .deviceAccess adr ∧ kindAt c.memMap adr = .device

section StopsByMap
variable {α β : Type} {c : Config} {adrs : List Addr}

theorem stopsByMap_next (v : α) : StopsByMap c adrs (.next v) := ⟨nofun, nofun⟩

theorem stopsByMap_absent {adr : Addr} (kind : kindAt c.memMap adr = .absent) :
    StopsByMap (α := α) c adrs (.fault (.absentMemory adr)) := by
  refine ⟨fun e h => ?_, nofun⟩
  cases h
  exact .inl ⟨adr, rfl, kind⟩

theorem stopsByMap_rom {adr : Addr} (kind : kindAt c.memMap adr = .rom) (store : adr ∈ adrs) :
    StopsByMap (α := α) c adrs (.fault (.writeToRom adr)) := by
  refine ⟨fun e h => ?_, nofun⟩
  cases h
  exact .inr ⟨adr, rfl, kind, store⟩

theorem stopsByMap_device {adr : Addr} (kind : kindAt c.memMap adr = .device) :
    StopsByMap (α := α) c adrs (.refused (.deviceAccess adr)) := by
  refine ⟨nofun, fun e h => ?_⟩
  cases h
  exact ⟨adr, rfl, kind⟩

theorem StopsByMap.andThen {o : Res α} {k : α → Res β} (first : StopsByMap c adrs o)
    (rest : ∀ v, o = .next v → StopsByMap c adrs (k v)) : StopsByMap c adrs (andThen o k) := by
  cases o with
  | next v => exact rest v rfl
  | fault e =>
    refine ⟨fun e' h => ?_, nofun⟩
    cases h
    exact first.fault e rfl
  | refused e =>
    refine ⟨nofun, fun e' h => ?_⟩
    cases h
    exact first.refused e rfl

end StopsByMap

/-! ### The shared operations; `cfg` fixes the parameters, which an operation before may have passed on -/

section Ops
variable {c : Config} {s : State} {adrs : List Addr} {adr target : Addr} {v n : Byte} {src : Source} {dest : Dest}

theorem memRead_stopsByMap (cfg : s.cfg = c) : StopsByMap c adrs (memRead adr s) := by
  subst cfg
  obtain ⟨absent, device⟩ := memRead_stops adr s
  cases kind : kindAt s.cfg.memMap adr with
  | ram | rom =>
    rw [memRead_eq_next.2 ⟨by simp [kind], rfl⟩]
    exact stopsByMap_next _
  | absent =>
    rw [absent kind]
    exact stopsByMap_absent kind
  | device =>
    rw [device kind]
    exact stopsByMap_device kind

theorem memWrite_stopsByMap (cfg : s.cfg = c) (store : adr ∈ adrs) : StopsByMap c adrs (memWrite adr v s) := by
  subst cfg
  obtain ⟨absent, device, rom⟩ := memWrite_stops adr v s
  cases kind : kindAt s.cfg.memMap adr with
  | ram =>
    rw [memWrite_eq_next.2 ⟨kind, rfl⟩]
    exact stopsByMap_next _
  | absent =>
    rw [absent kind]
    exact stopsByMap_absent kind
  | rom =>
    rw [rom kind]
    exact stopsByMap_rom kind store
  | device =>
    rw [device kind]
    exact stopsByMap_device kind

theorem memRead16_stopsByMap (cfg : s.cfg = c) : StopsByMap c adrs (memRead16 adr s) := by
  refine (memRead_stopsByMap cfg).andThen fun ⟨lo, s1⟩ h => ?_
  obtain ⟨-, ⟨d, rfl⟩, -⟩ := memRead_next h
  exact StopsByMap.andThen (memRead_stopsByMap cfg) fun _ _ => stopsByMap_next _

theorem readSource_stopsByMap (cfg : s.cfg = c) : StopsByMap c adrs (readSource src s) := by
  cases src with
  | reg | imm => exact stopsByMap_next _
  | mem adr => exact memRead_stopsByMap cfg

theorem writeDest_stopsByMap (cfg : s.cfg = c) : StopsByMap c dest.stores (writeDest dest v s) := by
  cases dest with
  | reg r => exact stopsByMap_next _
  | mem adr => exact memWrite_stopsByMap cfg (List.mem_singleton_self adr)

theorem push8_stopsByMap (cfg : s.cfg = c) (store : s.stackTop 1 ∈ adrs) : StopsByMap c adrs (push8 v s) :=
  memWrite_stopsByMap (s := { s with sp := s.sp - 1 }) cfg store

theorem push16_stopsByMap (cfg : s.cfg = c) : StopsByMap c [s.stackTop 1, s.stackTop 2] (push16 target s) := by
  refine (push8_stopsByMap cfg List.mem_cons_self).andThen fun s1 h => ?_
  obtain ⟨-, rfl⟩ := push8_eq_next.1 h
  refine push8_stopsByMap cfg (List.mem_cons_of_mem _ (List.mem_singleton.2 ?_))
  simp only [State.stackTop, byte_sub_one_sub_one]

theorem pop8_stopsByMap (cfg : s.cfg = c) : StopsByMap c adrs (pop8 s) :=
  (memRead_stopsByMap cfg).andThen fun _ _ => stopsByMap_next _

theorem pop16_stopsByMap (cfg : s.cfg = c) : StopsByMap c adrs (pop16 s) := by
  refine (pop8_stopsByMap cfg).andThen fun ⟨lo, s1⟩ h => ?_
  obtain ⟨-, ⟨d, rfl⟩, -⟩ := pop8_next h
  exact StopsByMap.andThen (pop8_stopsByMap cfg) fun _ _ => stopsByMap_next _

theorem move_stopsByMap (cfg : s.cfg = c) : StopsByMap c dest.stores (move dest src s) := by
  refine (readSource_stopsByMap cfg).andThen fun ⟨v, s1⟩ h => ?_
  obtain ⟨m, d, rfl⟩ := readSource_next h
  exact writeDest_stopsByMap cfg

theorem pushSource_stopsByMap (cfg : s.cfg = c) : StopsByMap c [s.stackTop 1] (pushSource src s) := by
  refine (readSource_stopsByMap cfg).andThen fun ⟨v, s1⟩ h => ?_
  obtain ⟨m, d, rfl⟩ := readSource_next h
  exact push8_stopsByMap cfg (List.mem_singleton_self _)

theorem popDest_stopsByMap (cfg : s.cfg = c) : StopsByMap c dest.stores (popDest dest s) := by
  refine (pop8_stopsByMap cfg).andThen fun ⟨v, s1⟩ h => ?_
  obtain ⟨-, ⟨d, rfl⟩, -⟩ := pop8_next h
  exact writeDest_stopsByMap cfg

theorem callTo_stopsByMap (cfg : s.cfg = c) : StopsByMap c [s.stackTop 1, s.stackTop 2] (callTo target s) :=
  (push16_stopsByMap cfg).andThen fun _ _ => stopsByMap_next _

theorem returnFromStack_stopsByMap (cfg : s.cfg = c) : StopsByMap c adrs (returnFromStack s) :=
  (pop16_stopsByMap cfg).andThen fun _ _ => stopsByMap_next _

theorem intTarget_stopsByMap (cfg : s.cfg = c) (present : c.intTarget ≠ .absent) : StopsByMap c adrs (intTarget n s) := by
  unfold intTarget
  split
  next absent => exact absurd absent (cfg ▸ present)
  · exact stopsByMap_next _
  · exact memRead16_stopsByMap cfg
  · exact stopsByMap_next _

/-- An ALU operation is stopped by SR as its destination (rule R165), else as its store is. -/
theorem aluWrite_stops {flags : Status} (cfg : s.cfg = c) :
    (dest = .reg .sr ∧ aluWrite dest v flags s = .refused .aluDestSR)
      ∨ StopsByMap c dest.stores (aluWrite dest v flags s) := by
  by_cases sr : dest = .reg .sr
  · exact .inl ⟨sr, if_pos sr⟩
  · rw [aluWrite, if_neg sr]
    exact .inr (writeDest_stopsByMap cfg)

/-- INT is stopped by a missing `INT_TARGET` before its pushes (rule R235), else as they and the read of the table are. -/
theorem intCall_stops (cfg : s.cfg = c) :
    (c.intTarget = .absent ∧ intCall n s = .refused .intTargetOpen)
      ∨ StopsByMap c [s.stackTop 1, s.stackTop 2] (intCall n s) := by
  subst cfg
  by_cases absent : s.cfg.intTarget = .absent
  · exact .inl ⟨absent, if_pos absent⟩
  · rw [intCall, if_neg absent]
    refine .inr ((push16_stopsByMap rfl).andThen fun s1 h => ?_)
    obtain ⟨-, -, rfl⟩ := push16_next h
    exact StopsByMap.andThen (intTarget_stopsByMap rfl absent) fun _ _ => stopsByMap_next _

end Ops

/-- If `o` stops, its stop names a cause that the instruction `i` meets in `s`. -/
def NamesCause (i : Instr) (s : State) (o : Res State) : Prop :=
  (∀ e, o = .fault e →
      (∃ adr, e = .absentMemory adr ∧ kindAt s.cfg.memMap adr = .absent)
        ∨ ∃ adr, e = .writeToRom adr ∧ kindAt s.cfg.memMap adr = .rom ∧ adr ∈ storedTo s i)
    ∧ ∀ e, o = .refused e →
      (e = .aluDestSR ∧ isAlu i ∧ namedDest i = some .sr)
        ∨ (e = .intTargetOpen ∧ s.cfg.intTarget = .absent ∧ ((∃ n, i = .intI n) ∨ ∃ rs, i = .intR rs))
        ∨ ∃ adr, e = .deviceAccess adr ∧ kindAt s.cfg.memMap adr = .device

section NamesCause
variable {i : Instr} {s : State}

theorem StopsByMap.namesCause {o : Res State} {adrs : List Addr} (h : StopsByMap s.cfg adrs o)
    (stores : storedTo s i = adrs) : NamesCause i s o := by
  subst stores
  exact ⟨h.fault, fun e he => .inr (.inr (h.refused e he))⟩

theorem namesCause_aluDestSR (alu : isAlu i) (named : namedDest i = some .sr) : NamesCause i s (.refused .aluDestSR) := by
  refine ⟨nofun, fun e h => ?_⟩
  cases h
  exact .inl ⟨rfl, alu, named⟩

theorem namesCause_intTargetOpen (absent : s.cfg.intTarget = .absent) (op : (∃ n, i = .intI n) ∨ ∃ rs, i = .intR rs) :
    NamesCause i s (.refused .intTargetOpen) := by
  refine ⟨nofun, fun e h => ?_⟩
  cases h
  exact .inr (.inl ⟨rfl, absent, op⟩)

end NamesCause

theorem ExecForm.namesCause {i : Instr} {s : State} {o : Res State} (form : ExecForm i s o) : NamesCause i s o := by
  cases form with
  | move dest src stores => exact (move_stopsByMap rfl).namesCause stores
  | push src stores => exact (pushSource_stopsByMap rfl).namesCause stores
  | pop dest stores => exact (popDest_stopsByMap rfl).namesCause stores
  | call adr stores => exact (callTo_stopsByMap rfl).namesCause stores
  | ret stores => exact (returnFromStack_stopsByMap rfl).namesCause stores
  | regs t _ stores => exact (stopsByMap_next t).namesCause stores
  | alu dest res flags draws alu named stores =>
    obtain ⟨rfl, refused⟩ | byMap :=
      aluWrite_stops (dest := dest) (v := res) (flags := flags) (s := { s with draws := draws }) rfl
    · rw [refused]
      exact namesCause_aluDestSR alu named
    · exact byMap.namesCause stores
  | int n draws op stores =>
    obtain ⟨absent, refused⟩ | byMap := intCall_stops (n := n) (s := { s with draws := draws }) rfl
    · rw [refused]
      exact namesCause_intTargetOpen absent op
    · exact byMap.namesCause stores

/-- Settles O13: each stop of an instruction is the stop of the shared operation that it is. -/
theorem stopsNameTheirCause : Obligations.StopsNameTheirCause := fun i s => (exec_form i s).namesCause

end Sys2Proof.Machine
end

section
/-! SUPPORT. Which accesses `MEM_MAP` stops, each in its turn (`20_memory.md` rules R69, R76, R77): an operation stops at the first
access that has no meaning, and what comes after it is never reached. -/

namespace Sys2Proof.Machine

theorem andThen_assoc {α β γ : Type} (o : Res α) (k : α → Res β) (l : β → Res γ) :
    andThen (andThen o k) l = andThen o fun v => andThen (k v) l := by
  cases o <;> rfl

/-! ### One access -/

section Access
variable {s : State} {adr : Addr} {v : Byte}

/-- A read that has no meaning stops whatever was to come after it. -/
theorem memRead_stopsRead (k : Byte × State → Res State) : StopsRead s adr (andThen (memRead adr s) k) := by
  obtain ⟨absent, device⟩ := memRead_stops adr s
  exact ⟨fun kind => by rw [absent kind, andThen_fault], fun kind => by rw [device kind, andThen_refused]⟩

theorem memWrite_stopsWrite : StopsWrite s adr (memWrite adr v s) := by
  obtain ⟨absent, device, rom⟩ := memWrite_stops adr v s
  exact ⟨⟨absent, device⟩, rom⟩

/-- Of the state, only the parameters count. -/
theorem StopsWrite.of_cfg {s1 : State} {o : Res State} (h : StopsWrite s1 adr o) (cfg : s1.cfg = s.cfg) :
    StopsWrite s adr o := by
  rw [StopsWrite, StopsRead, ← cfg]
  exact h

/-- A write that has no meaning stops whatever was to come after it. -/
theorem StopsWrite.andThen {o : Res State} (h : StopsWrite s adr o) (k : State → Res State) :
    StopsWrite s adr (andThen o k) := by
  obtain ⟨⟨absent, device⟩, rom⟩ := h
  exact ⟨⟨fun kind => by rw [absent kind, andThen_fault], fun kind => by rw [device kind, andThen_refused]⟩,
    fun kind => by rw [rom kind, andThen_fault]⟩

end Access

/-! ### The stack -/

section Stack
variable {s : State} {v : Byte} {target : Addr}

@[simp] theorem stackTop_zero (s : State) : s.stackTop 0 = stackAddr s.cfg.stackPage s.sp :=
  congrArg (stackAddr s.cfg.stackPage) (BitVec.sub_zero s.sp)

/-- Once the first byte of a word is pushed, the next goes where the second byte goes (rule R192). -/
theorem stackTop_one_of_pushed {s1 : State} (cfg : s1.cfg = s.cfg) (sp : s1.sp = s.sp - 1) :
    s1.stackTop 1 = s.stackTop 2 := by
  rw [State.stackTop, cfg, sp, byte_sub_one_sub_one, State.stackTop]

theorem push8_stopsWrite : StopsWrite s (s.stackTop 1) (push8 v s) :=
  memWrite_stopsWrite (s := { s with sp := s.sp - 1 })

theorem push16_stopsWrite_high : StopsWrite s (s.stackTop 1) (push16 target s) := push8_stopsWrite.andThen _

theorem push16_stopsWrite_low (high : s.writable (s.stackTop 1)) : StopsWrite s (s.stackTop 2) (push16 target s) := by
  obtain ⟨s1, hpush⟩ : ∃ s1, push8 (highByte target) s = .next s1 := ⟨_, push8_eq_next.2 ⟨high, rfl⟩⟩
  obtain ⟨-, after⟩ := push8_eq_next.1 hpush
  have cfg : s1.cfg = s.cfg := by rw [after]
  have next : s1.stackTop 1 = s.stackTop 2 := stackTop_one_of_pushed cfg (by rw [after])
  rw [push16, hpush, andThen_next, ← next]
  exact push8_stopsWrite.of_cfg cfg

theorem pushSource_stopsWrite {src : Source} {s1 : State} (hread : readSource src s = .next (v, s1)) :
    StopsWrite s (s.stackTop 1) (pushSource src s) := by
  rw [pushSource, hread, andThen_next]
  obtain ⟨m, d, rfl⟩ := readSource_next hread
  exact push8_stopsWrite (s := { s with mar := m, draws := d })

theorem pop8_stopsRead (k : Byte × State → Res State) : StopsRead s (s.stackTop 0) (andThen (pop8 s) k) := by
  rw [stackTop_zero, pop8, andThen_assoc]
  exact memRead_stopsRead _

theorem popDest_stopsWrite {adr : Addr} (top : s.readable (s.stackTop 0)) : StopsWrite s adr (popDest (.mem adr) s) := by
  rw [stackTop_zero] at top
  obtain ⟨v, s1, hpop⟩ := pop8_completes top
  rw [popDest, hpop, andThen_next]
  obtain ⟨-, ⟨d, rfl⟩, -⟩ := pop8_next hpop
  exact memWrite_stopsWrite (s := { s with sp := s.sp + 1, mar := stackAddr s.cfg.stackPage s.sp, draws := d })

theorem returnFromStack_stopsRead_low : StopsRead s (s.stackTop 0) (returnFromStack s) := by
  rw [returnFromStack, pop16, andThen_assoc]
  exact pop8_stopsRead _

theorem returnFromStack_stopsRead_high (low : s.readable (s.stackTop 0)) :
    StopsRead s (stackAddr s.cfg.stackPage (s.sp + 1)) (returnFromStack s) := by
  rw [stackTop_zero] at low
  obtain ⟨lo, s1, hpop⟩ := pop8_completes low
  rw [returnFromStack, pop16, hpop, andThen_next, andThen_assoc]
  obtain ⟨-, ⟨d, rfl⟩, -⟩ := pop8_next hpop
  have high := pop8_stopsRead (s := { s with sp := s.sp + 1, mar := stackAddr s.cfg.stackPage s.sp, draws := d })
  simp only [stackTop_zero] at high
  exact high _

end Stack

/-! ### INT -/

section Int
variable {s : State} {n : Byte} {base : Addr} {draws : Nat}

theorem intCall_of_present (present : s.cfg.intTarget ≠ .absent) :
    intCall n s = andThen (push16 s.pc s) fun s1 => andThen (intTarget n s1) fun t => .next (setPc t.1 t.2) :=
  if_neg present

theorem memRead16_stopsRead_low {adr : Addr} (k : Addr × State → Res State) :
    StopsRead s adr (andThen (memRead16 adr s) k) := by
  rw [memRead16, andThen_assoc]
  exact memRead_stopsRead _

theorem memRead16_stopsRead_high {adr : Addr} (low : s.readable adr) (k : Addr × State → Res State) :
    StopsRead s (adr + 1) (andThen (memRead16 adr s) k) := by
  obtain ⟨lo, s1, hread⟩ := memRead_completes low
  rw [memRead16, hread, andThen_next, andThen_assoc]
  obtain ⟨-, ⟨d, rfl⟩, -⟩ := memRead_next hread
  exact memRead_stopsRead (s := { s with mar := adr, draws := d }) _

/-- The table is read in the state after the two pushes, which have left the parameters alone (rule R215). -/
theorem intCall_stopsTableRead (table : s.cfg.intTarget = .table base) (high : s.writable (s.stackTop 1))
    (low : s.writable (s.stackTop 2)) : StopsTableRead s base n (intCall n s) := by
  obtain ⟨s1, hpush⟩ := push16_completes (v := s.pc) high low
  have cfg : s1.cfg = s.cfg := (push16_effect hpush).cfg_eq
  have read : intCall n s = andThen (memRead16 (base + 2 * n.setWidth 16) s1) fun t => .next (setPc t.1 t.2) := by
    rw [intCall_of_present (by simp [table]), hpush, andThen_next, intTarget, cfg, table]
  rw [read, StopsTableRead, State.readable, StopsRead, StopsRead, ← cfg]
  exact ⟨memRead16_stopsRead_low _, fun readable => memRead16_stopsRead_high readable _⟩

theorem intCall_stopsWrite (present : s.cfg.intTarget ≠ .absent) :
    StopsWrite s (s.stackTop 1) (intCall n s)
      ∧ (s.writable (s.stackTop 1) → StopsWrite s (s.stackTop 2) (intCall n s)) := by
  rw [intCall_of_present present]
  exact ⟨push16_stopsWrite_high.andThen _, fun high => (push16_stopsWrite_low high).andThen _⟩

end Int

/-! ### The instructions -/

/-- The only access of an ALU operation is the store of its result; a shift has drawn CF and OF before it (rules R163, R164). -/
theorem aluWrite_stopsWrite {s : State} {adr : Addr} {res : Byte} {flags : Status} {draws : Nat} :
    StopsWrite s adr (aluWrite (.mem adr) res flags { s with draws := draws }) := by
  rw [aluWrite, if_neg nofun]
  exact memWrite_stopsWrite (s := { s with sr := flags, draws := draws })

theorem exec_alu_mem_stopsWrite {s : State} {adr : Addr} {i : Addr → Instr}
    (alu : i ∈ [Instr.addA, .subA, .adcA, .lshA, .rshA, .orA, .andA, .xorA]) : StopsWrite s adr (exec (i adr) s) := by
  simp only [List.mem_cons, List.not_mem_nil, or_false] at alu
  obtain rfl | rfl | rfl | rfl | rfl | rfl | rfl | rfl := alu <;> exact aluWrite_stopsWrite

/-! ### The fetch -/

section Fetch
variable {s : State}

theorem fetchByte_stopsRead (k : Byte × State → Res State) : StopsRead s s.pc (andThen (fetchByte s) k) := by
  rw [fetchByte, andThen_assoc]
  exact memRead_stopsRead _

theorem fetchByte_completes (readable : s.readable s.pc) :
    ∃ v d, fetchByte s = .next (v, { s with pc := s.pc + 1, mar := s.pc, draws := d }) := by
  obtain ⟨v, s1, hread⟩ := memRead_completes readable
  obtain ⟨-, ⟨d, rfl⟩, -⟩ := memRead_next hread
  exact ⟨v, d, by rw [fetchByte, hread]; rfl⟩

/-- Offset `k + 1` from an address is offset `k` from the next. -/
theorem addr_add_succ (adr : Addr) (k : Nat) : adr + BitVec.ofNat 16 (k + 1) = adr + 1 + BitVec.ofNat 16 k := by
  rw [BitVec.add_assoc, BitVec.add_comm 1, BitVec.ofNat_add k 1]
  rfl

/-- The bytes of an instruction are fetched at ascending addresses; the first that cannot be read stops the fetch. -/
theorem fetchBytes_stopsRead {n k : Nat} (within : k < n) (before : ∀ j < k, s.readable (s.pc + BitVec.ofNat 16 j))
    (cont : List Byte × State → Res State) :
    StopsRead s (s.pc + BitVec.ofNat 16 k) (andThen (fetchBytes n s) cont) := by
  induction n generalizing k s cont with
  | zero => exact absurd within (Nat.not_lt_zero k)
  | succ n ih =>
    rw [fetchBytes, andThen_assoc]
    cases k with
    | zero =>
      rw [BitVec.add_zero]
      exact fetchByte_stopsRead _
    | succ k =>
      have first : s.readable s.pc := by simpa using before 0 k.succ_pos
      obtain ⟨v, d, hfetch⟩ := fetchByte_completes first
      rw [hfetch, andThen_next, andThen_assoc, addr_add_succ]
      refine ih (s := { s with pc := s.pc + 1, mar := s.pc, draws := d }) (Nat.lt_of_succ_lt_succ within)
        (fun j hj => ?_) _
      have next := before (j + 1) (Nat.succ_lt_succ hj)
      rwa [addr_add_succ] at next

theorem step_stopsRead_opcode (running : s.halted = false) : StopsRead s s.pc (step s) := by
  rw [step_of_running running, fetch, andThen_assoc]
  exact fetchByte_stopsRead _

theorem step_stopsRead_operand {op : Byte} {f : Form} {k : Nat} (running : s.halted = false)
    (opcode : s.peek s.pc = some op) (form : formOf s.cfg op = some f) (within : k < f.length)
    (before : ∀ j < k, s.readable (s.pc + BitVec.ofNat 16 j)) :
    StopsRead s (s.pc + BitVec.ofNat 16 k) (step s) := by
  cases k with
  | zero =>
    rw [BitVec.add_zero]
    exact step_stopsRead_opcode running
  | succ k =>
    have first : s.readable s.pc := by simpa using before 0 k.succ_pos
    rw [step_of_running running, fetch, fetchByte_of_listed first opcode, andThen_next]
    simp only [form]
    rw [fetchOperands, andThen_assoc, addr_add_succ]
    refine fetchBytes_stopsRead (s := { s with pc := s.pc + 1, mar := s.pc }) (Nat.lt_sub_of_add_lt within)
      (fun j hj => ?_) _
    have next := before (j + 1) (Nat.succ_lt_succ hj)
    rwa [addr_add_succ] at next

end Fetch

/-- Settles O12: MOV's load and store are its first access; of the fetch, each byte is read where all before it could be. -/
theorem memoryMapStops : Obligations.MemoryMapStops := by
  intro s adr
  refine ⟨fun r => ⟨memRead_stopsRead _, ?_⟩, fun running => ⟨?_, fun op f k opcode form within before at_adr => ?_⟩⟩
  · obtain ⟨d, after⟩ := readReg_state r s
    have cfg : (readReg r s).2.cfg = s.cfg := by rw [after]
    exact memWrite_stopsWrite.of_cfg cfg
  · rintro rfl
    exact step_stopsRead_opcode running
  · subst at_adr
    exact step_stopsRead_operand running opcode form within before

/-- Settles O59: PUSH and POP begin with their load, RET and IRET with two, and INT comes to its table after its pushes. -/
theorem loadsStopByMemoryMap : Obligations.LoadsStopByMemoryMap := by
  intro s
  refine ⟨fun adr => memRead_stopsRead _, fun i op => ?_, fun low i op => ?_, fun base table high low =>
    ⟨fun n => intCall_stopsTableRead table high low, fun rs => ?_⟩⟩
  · obtain ⟨rd, rfl⟩ | ⟨adr, rfl⟩ | rfl | rfl := op
    · exact pop8_stopsRead _
    · exact pop8_stopsRead _
    · exact returnFromStack_stopsRead_low
    · exact returnFromStack_stopsRead_low
  · obtain rfl | rfl := op
    · exact returnFromStack_stopsRead_high low
    · exact returnFromStack_stopsRead_high low
  · obtain ⟨n, draws, delivered, called⟩ := exec_intR rs s
    rw [called]
    exact ⟨n, delivered, intCall_stopsTableRead (s := { s with draws := draws }) table high low⟩

/-- Settles O60: the store is the first access of PUSH of a constant or a register and of an ALU operation; it comes after the
load of PUSH of a byte and of POP; CALL and INT make two stores, the high byte's first. -/
theorem storesStopByMemoryMap : Obligations.StoresStopByMemoryMap := by
  intro s
  refine ⟨fun adr i alu => exec_alu_mem_stopsWrite alu, fun top adr => popDest_stopsWrite top,
    fun imm => pushSource_stopsWrite (src := .imm imm) rfl, fun rs => pushSource_stopsWrite (src := .reg rs) rfl,
    fun adr readable => ?_, fun i op => ?_⟩
  · obtain ⟨v, s1, hread⟩ := memRead_completes readable
    exact pushSource_stopsWrite (src := .mem adr) hread
  · obtain ⟨adr, rfl⟩ | ⟨present, ⟨n, rfl⟩ | ⟨rs, rfl⟩⟩ := op
    · exact ⟨push16_stopsWrite_high.andThen _, fun high => (push16_stopsWrite_low high).andThen _⟩
    · exact intCall_stopsWrite present
    · obtain ⟨n, draws, -, called⟩ := exec_intR rs s
      rw [called]
      exact intCall_stopsWrite (s := { s with draws := draws }) present

end Sys2Proof.Machine
end

section
/-! SUPPORT. How many bytes an instruction that decodes takes: those of its form (`30_encoding.md` rules R92, R101). -/

namespace Sys2Proof

section Operands
variable {c : Config} {bs rest : List Byte} {i : Instr}

theorem withReg_eq_ok {code : Byte} {k : Reg → Decoded} {d : Instr × List Byte} :
    withReg c code k = .ok d ↔ ∃ r, regOf c code = some r ∧ k r = .ok d := by
  unfold withReg
  split <;> simp_all

theorem decodeR_length {k : Reg → Instr} (h : decodeR c k bs = .ok (i, rest)) : bs.length = rest.length + 1 := by
  match bs, h with
  | _ :: _, h =>
    obtain ⟨r, -, hk⟩ := withReg_eq_ok.1 h
    cases hk
    rfl

theorem decodeI8_length {k : Byte → Instr} (h : decodeI8 k bs = .ok (i, rest)) : bs.length = rest.length + 1 := by
  match bs, h with
  | _ :: _, h =>
    cases h
    rfl

theorem decodeA16_length {k : Addr → Instr} (h : decodeA16 k bs = .ok (i, rest)) : bs.length = rest.length + 2 := by
  match bs, h with
  | _ :: _ :: _, h =>
    cases h
    rfl

theorem decodeRR_length {k : Reg → Reg → Instr} (h : decodeRR c k bs = .ok (i, rest)) : bs.length = rest.length + 2 := by
  match bs, h with
  | _ :: _ :: _, h =>
    obtain ⟨rd, -, hd⟩ := withReg_eq_ok.1 h
    obtain ⟨rs, -, hs⟩ := withReg_eq_ok.1 hd
    cases hs
    rfl

theorem decodeRI8_length {k : Reg → Byte → Instr} (h : decodeRI8 c k bs = .ok (i, rest)) :
    bs.length = rest.length + 2 := by
  match bs, h with
  | _ :: _ :: _, h =>
    obtain ⟨rd, -, hk⟩ := withReg_eq_ok.1 h
    cases hk
    rfl

theorem decodeRA16_length {k : Reg → Addr → Instr} (h : decodeRA16 c k bs = .ok (i, rest)) :
    bs.length = rest.length + 3 := by
  match bs, h with
  | _ :: _ :: _ :: _, h =>
    obtain ⟨rd, -, hk⟩ := withReg_eq_ok.1 h
    cases hk
    rfl

theorem decodeA16R_length {k : Addr → Reg → Instr} (h : decodeA16R c k bs = .ok (i, rest)) :
    bs.length = rest.length + 3 := by
  match bs, h with
  | _ :: _ :: _ :: _, h =>
    obtain ⟨rs, -, hk⟩ := withReg_eq_ok.1 h
    cases hk
    rfl

/-- The operand bytes that are decoded are those of the form's format. -/
theorem decodeOperands_length {f : Form} (h : decodeOperands c f bs = .ok (i, rest)) :
    bs.length = rest.length + (f.length - 1) := by
  cases f with
  | movRR => exact decodeRR_length h
  | movRI => exact decodeRI8_length h
  | movRA => exact decodeRA16_length h
  | movAR => exact decodeA16R_length h
  | jmp | jo | jno | js | jns | je | jne | jb | jnb | jbe | ja | jl | jge | jle | jg | addA | subA | adcA | lshA | rshA
  | orA | andA | xorA | callA | pushA | popA => exact decodeA16_length h
  | addR | subR | adcR | lshR | rshR | orR | andR | xorR | pushR | popR | intR => exact decodeR_length h
  | pushI | intI => exact decodeI8_length h
  | cmp | inc | dec | ret | iret | cli | sei | hlt =>
    cases h
    rfl

/-- Bytes that decode are an opcode byte with a form, and the operand bytes of that form. -/
theorem decode_eq_ok {w : List Byte} (h : decode c w = .ok (i, rest)) :
    ∃ op bs f, w = op :: bs ∧ formOf c op = some f ∧ decodeOperands c f bs = .ok (i, rest) := by
  match w, h with
  | op :: bs, h =>
    simp only [decode] at h
    split at h
    next f form => exact ⟨op, bs, f, rfl, form, h⟩
    next => cases h

end Operands

/-- No instruction is longer than four bytes (rule R101). -/
theorem Form.length_le_four (f : Form) : f.length ≤ 4 := by
  unfold Form.length
  cases f.format <;> decide

theorem decode_length_le_four {c : Config} {w : List Byte} {i : Instr} (h : decode c w = .ok (i, [])) : w.length ≤ 4 := by
  obtain ⟨op, bs, f, rfl, -, operands⟩ := decode_eq_ok h
  have count := decodeOperands_length operands
  have most := f.length_le_four
  simp only [List.length_cons, List.length_nil] at count ⊢
  omega

end Sys2Proof
end

section
/-! SUPPORT. Memory seen again: a load after a store, and the fetch of bytes that memory holds, among them one that an instruction
has stored (`20_memory.md` rules R71, R74; `30_encoding.md` rule R100). -/

namespace Sys2Proof.Machine

/-! ### The fetch of bytes that memory holds -/

section CodeAt
variable {s : State}

/-- Code at an address, byte by byte. -/
theorem codeAt_iff {adr : Addr} {w : List Byte} : s.codeAt adr w ↔
    ∀ j v, w[j]? = some v → s.readable (adr + BitVec.ofNat 16 j) ∧ s.peek (adr + BitVec.ofNat 16 j) = some v := by
  induction w generalizing adr with
  | nil => simp [State.codeAt]
  | cons u w ih =>
    rw [State.codeAt, ih]
    constructor
    · rintro ⟨readable, held, rest⟩ j v hj
      cases j with
      | zero =>
        cases hj
        rw [BitVec.add_zero]
        exact ⟨readable, held⟩
      | succ j =>
        rw [addr_add_succ]
        exact rest j v hj
    · intro bytes
      obtain ⟨readable, held⟩ := bytes 0 u rfl
      rw [BitVec.add_zero] at readable held
      refine ⟨readable, held, fun j v hj => ?_⟩
      rw [← addr_add_succ]
      exact bytes (j + 1) v hj

theorem codeAt_of_same_mem {t : State} {adr : Addr} {w : List Byte} (code : s.codeAt adr w) (cfg : t.cfg = s.cfg)
    (mem : t.mem = s.mem) : t.codeAt adr w := by
  simpa only [codeAt_iff, State.readable, State.peek, cfg, mem] using code

/-- Bytes that memory holds are fetched as they are; MAR follows PC, one behind it. -/
theorem fetchBytes_of_codeAt {w : List Byte} (code : s.codeAt s.pc w) (mar : s.mar = s.pc - 1) :
    fetchBytes w.length s
      = .next (w, { s with pc := s.pc + BitVec.ofNat 16 w.length, mar := s.pc + BitVec.ofNat 16 w.length - 1 }) := by
  induction w generalizing s with
  | nil =>
    rw [List.length_nil, BitVec.add_zero, ← mar]
    rfl
  | cons v w ih =>
    obtain ⟨readable, held, rest⟩ := code
    have behind : s.pc = s.pc + 1 - 1 := (BitVec.add_sub_cancel s.pc 1).symm
    have tail := ih (s := { s with pc := s.pc + 1, mar := s.pc }) (codeAt_of_same_mem rest rfl rfl) behind
    rw [List.length_cons, fetchBytes, fetchByte_of_listed readable held, andThen_next, tail, addr_add_succ]
    rfl

theorem fetch_of_codeAt {i : Instr} {w : List Byte} (code : s.codeAt s.pc w) (decodes : decode s.cfg w = .ok (i, [])) :
    fetch s
      = .next (i, { s with pc := s.pc + BitVec.ofNat 16 w.length, mar := s.pc + BitVec.ofNat 16 w.length - 1 }) := by
  obtain ⟨op, bs, f, rfl, form, operands⟩ := decode_eq_ok decodes
  obtain ⟨readable, held, rest⟩ := code
  have count : f.length - 1 = bs.length := ((decodeOperands_length operands).trans (Nat.zero_add _)).symm
  have behind : s.pc = s.pc + 1 - 1 := (BitVec.add_sub_cancel s.pc 1).symm
  have tail := fetchBytes_of_codeAt (s := { s with pc := s.pc + 1, mar := s.pc }) (codeAt_of_same_mem rest rfl rfl) behind
  rw [fetch, fetchByte_of_listed readable held, andThen_next, List.length_cons, addr_add_succ]
  simp only [form]
  rw [fetchOperands, count, tail, andThen_next]
  simp only [operands]

/-- A running machine executes the instruction that the bytes at PC spell (rule R100). -/
theorem step_of_codeAt {i : Instr} {w : List Byte} (running : s.halted = false) (code : s.codeAt s.pc w)
    (decodes : decode s.cfg w = .ok (i, [])) :
    step s = exec i { s with pc := s.pc + BitVec.ofNat 16 w.length, mar := s.pc + BitVec.ofNat 16 w.length - 1 } := by
  rw [step_of_running running, fetch_of_codeAt code decodes, andThen_next]

end CodeAt

/-! ### A store seen by a load and by a fetch -/

/-- `MOV adr, A` to ram is the store of A (rule R133). -/
theorem exec_movAR_a {s : State} {adr : Addr} (ram : s.writable adr) :
    exec (.movAR adr .a) s = .next { s with mem := s.mem.write adr s.a, mar := adr } := memWrite_eq_next.2 ⟨ram, rfl⟩

/-- Settles O30: ram can be read, and the read finds the byte that the store has listed. -/
theorem loadSeesStore : Obligations.LoadSeesStore := by
  intro s adr ram
  have load := memRead_of_listed (s := { s with mem := s.mem.write adr s.a, mar := adr }) (.inl ram)
    (Memory.read_write_same s.mem adr s.a)
  exact ⟨_, _, exec_movAR_a ram, andThen_eq_next.2 ⟨_, load, rfl⟩, rfl⟩

/-- Bytes at two places of one instruction have two addresses, PC wrapping or not (rule R36). -/
theorem addr_add_ne {adr : Addr} {j k : Nat} (hj : j < 65536) (hk : k < 65536) (ne : j ≠ k) :
    adr + BitVec.ofNat 16 j ≠ adr + BitVec.ofNat 16 k := by
  intro same
  have numbers := congrArg BitVec.toNat (add_left_cancel same)
  rw [BitVec.toNat_ofNat, BitVec.toNat_ofNat, Nat.mod_eq_of_lt hj, Nat.mod_eq_of_lt hk] at numbers
  exact ne numbers

/-- Settles O31: the store leaves the other bytes of the instruction as they are, so that the bytes at PC are those of `w`. -/
theorem nextFetchSeesStore : Obligations.NextFetchSeesStore := by
  intro s i w k running decodes stored ram others
  refine ⟨_, exec_movAR_a ram, rfl, step_of_codeAt running (codeAt_iff.2 fun j v hj => ?_) decodes⟩
  have short := decode_length_le_four decodes
  have within : ∀ {n u}, w[n]? = some u → n < 65536 := fun hn =>
    ((List.getElem?_eq_some_iff.1 hn).1.trans_le short).trans (by decide)
  by_cases same : j = k
  · subst same
    obtain rfl : s.a = v := Option.some.inj (stored.symm.trans hj)
    exact ⟨.inl ram, Memory.read_write_same _ _ _⟩
  · obtain ⟨readable, held⟩ := others j v same hj
    exact ⟨readable, (Memory.read_write_other _ _ (addr_add_ne (within hj) (within stored) same)).trans held⟩

end Sys2Proof.Machine
end

section
/-! SUPPORT. The tables that the decoder and the encoder read, each way round: register codes (`30_encoding.md` rule R95) and
opcode bytes (rules R96 to R98). -/

namespace Sys2Proof

theorem allDistinct_iff_nodup {α : Type} [DecidableEq α] {l : List α} : allDistinct l = true ↔ l.Nodup := by
  induction l with
  | nil => simp [allDistinct]
  | cons v vs ih => simp [allDistinct, ih]

/-- What admissible parameters are (rules R60, R95, R98). -/
theorem Config.wf_iff {c : Config} :
    c.wf = true ↔ opcodeMapOk c.opcodeMap = true ∧ c.regCodesOk = true ∧ c.memMap.all MemRegion.wf = true := by
  rw [Config.wf, Bool.and_eq_true, Bool.and_eq_true, and_assoc]

/-! ### Register codes -/

section RegisterCodes
variable {c : Config} {v : Byte}

theorem regCode_of_regOf {r : Reg} (names : regOf c v = some r) : regCode c r = v := by
  unfold regOf at names
  split_ifs at names <;> (cases names; exact Eq.symm ‹_›)

/-- A byte names no register exactly when it is none of the six codes, whatever the codes are. -/
theorem regOf_eq_none_iff : regOf c v = none ↔ ∀ r, regCode c r ≠ v := by
  constructor
  · rintro nameless r rfl
    unfold regOf at nameless
    split_ifs at nameless with a b x y sp sr
    cases r
    exacts [a rfl, b rfl, x rfl, y rfl, sp rfl, sr rfl]
  · intro noCode
    cases names : regOf c v with
    | none => rfl
    | some r => exact absurd (regCode_of_regOf names) (noCode r)

/-- Distinct codes are read back as the registers they stand for. -/
theorem regOf_regCode (codes : c.regCodesOk = true) (r : Reg) : regOf c (regCode c r) = some r := by
  have distinct := allDistinct_iff_nodup.1 codes
  simp only [List.nodup_cons, List.mem_cons, not_or] at distinct
  obtain ⟨⟨-, ax, ay, asp, asr, -⟩, ⟨bx, bY, bsp, bsr, -⟩, ⟨xy, xsp, xsr, -⟩, ⟨ysp, ysr, -⟩, ⟨spsr, -⟩, -⟩ := distinct
  cases r with
  | a | b => rfl
  | x => rw [regCode, regOf, if_neg (Ne.symm ax), if_neg (Ne.symm bx), if_pos rfl]
  | y => rw [regCode, regOf, if_neg (Ne.symm ay), if_neg (Ne.symm bY), if_neg (Ne.symm xy), if_pos rfl]
  | sp =>
    rw [regCode, regOf, if_neg (Ne.symm asp), if_neg (Ne.symm bsp), if_neg (Ne.symm xsp), if_neg (Ne.symm ysp), if_pos rfl]
  | sr =>
    rw [regCode, regOf, if_neg (Ne.symm asr), if_neg (Ne.symm bsr), if_neg (Ne.symm xsr), if_neg (Ne.symm ysr),
      if_neg (Ne.symm spsr), if_pos rfl]

end RegisterCodes

/-- Settles O6: codes are read back, so that no two registers share one; A and B come first in the table. -/
theorem registerCodesNameSixRegisters : Obligations.RegisterCodesNameSixRegisters := by
  intro c wf
  obtain ⟨-, codes, -⟩ := Config.wf_iff.1 wf
  refine ⟨rfl, rfl, fun r q same => ?_, regOf_regCode codes, fun v => regOf_eq_none_iff.symm⟩
  have readBack := regOf_regCode codes r
  rw [same, regOf_regCode codes q] at readBack
  exact (Option.some.inj readBack).symm

/-! ### Opcode bytes -/

section Tables
variable {f : Form} {op : Byte} {table : List (Form × Byte)}

theorem lookupForm_eq_find? : lookupForm op table = (table.find? fun e => e.2 == op).map Prod.fst := by
  induction table with
  | nil => rfl
  | cons e t ih => by_cases same : e.2 = op <;> simp [lookupForm, same, ih]

theorem lookupOpcode_eq_find? : lookupOpcode f table = (table.find? fun e => e.1 == f).map Prod.snd := by
  induction table with
  | nil => rfl
  | cons e t ih => by_cases same : e.1 = f <;> simp [lookupOpcode, same, ih]

/-- A row whose key no other row has is the one that its key finds. -/
theorem find?_of_mem {α β : Type} [DecidableEq β] {key : α → β} {rows : List α} {e : α} (distinct : (rows.map key).Nodup)
    (row : e ∈ rows) : rows.find? (fun d => key d == key e) = some e := by
  have found : (rows.find? fun d => key d == key e).isSome := List.find?_isSome.2 ⟨e, row, beq_self_eq_true (key e)⟩
  obtain ⟨d, found⟩ := Option.isSome_iff_exists.1 found
  have same := List.find?_some found
  rw [found, List.inj_on_of_nodup_map distinct (List.mem_of_find?_eq_some found) row (eq_of_beq same)]

theorem mem_of_lookupForm (found : lookupForm op table = some f) : (f, op) ∈ table := by
  rw [lookupForm_eq_find?] at found
  obtain ⟨e, row, rfl⟩ := Option.map_eq_some_iff.1 found
  have same := List.find?_some row
  obtain rfl : e.2 = op := eq_of_beq same
  exact List.mem_of_find?_eq_some row

theorem mem_of_lookupOpcode (found : lookupOpcode f table = some op) : (f, op) ∈ table := by
  rw [lookupOpcode_eq_find?] at found
  obtain ⟨e, row, rfl⟩ := Option.map_eq_some_iff.1 found
  have same := List.find?_some row
  obtain rfl : e.1 = f := eq_of_beq same
  exact List.mem_of_find?_eq_some row

theorem lookupForm_of_mem (distinct : (table.map Prod.snd).Nodup) (row : (f, op) ∈ table) :
    lookupForm op table = some f := by
  rw [lookupForm_eq_find?, find?_of_mem distinct row, Option.map_some]

theorem lookupOpcode_of_mem (distinct : (table.map Prod.fst).Nodup) (row : (f, op) ∈ table) :
    lookupOpcode f table = some op := by
  rw [lookupOpcode_eq_find?, find?_of_mem distinct row, Option.map_some]

end Tables

/-- The source's 16 rows name no form twice and no byte twice (rule R96). -/
theorem sourceOpcodes_distinct : (sourceOpcodes.map Prod.fst).Nodup ∧ (sourceOpcodes.map Prod.snd).Nodup := by decide

/-- No form of the source's table is open and no byte of it is blank (rules R97, R98). -/
theorem source_row_assigned : ∀ e ∈ sourceOpcodes, e.1.isOpen = false ∧ opcodeIsBlank e.2 = false := by decide

theorem mem_source_of_not_isOpen {f : Form} (assigned : f.isOpen = false) : f ∈ sourceOpcodes.map Prod.fst := by
  cases f with
  | jmp | jo | jno | js | jns | je | jne | jb | jnb | jbe | ja | jl | jge | jle | jg | hlt => decide
  | _ => cases assigned

/-- What an admissible `OPCODE_MAP` is (rule R98). -/
theorem opcodeMapOk_iff {m : List (Form × Byte)} : opcodeMapOk m = true ↔
    (∀ e ∈ m, e.1.isOpen = true ∧ opcodeIsBlank e.2 = true) ∧ (m.map Prod.fst).Nodup ∧ (m.map Prod.snd).Nodup := by
  simp only [opcodeMapOk, Bool.and_eq_true, List.all_eq_true, allDistinct_iff_nodup, and_assoc]

section OpcodeTable
variable {c : Config} {f : Form} {op : Byte}

/-- The source's rows stand first in the table, so that `OPCODE_MAP` cannot change them (rule R96). -/
theorem opcode_of_source_row (row : (f, op) ∈ sourceOpcodes) (c : Config) :
    formOf c op = some f ∧ opcodeOf c f = some op := by
  obtain ⟨forms, bytes⟩ := sourceOpcodes_distinct
  rw [formOf, lookupForm_eq_find?, List.find?_append, find?_of_mem bytes row, opcodeOf, lookupOpcode_eq_find?,
    List.find?_append, find?_of_mem forms row]
  exact ⟨rfl, rfl⟩

/-- The source's forms are not open and its bytes not blank, so a row of an admissible `OPCODE_MAP` shares neither. -/
theorem source_row_ne_map_row {d e : Form × Byte} (map : opcodeMapOk c.opcodeMap = true) (source : e ∈ sourceOpcodes)
    (mapped : d ∈ c.opcodeMap) : e.1 ≠ d.1 ∧ e.2 ≠ d.2 := by
  obtain ⟨notOpen, notBlank⟩ := source_row_assigned e source
  obtain ⟨isOpen, blank⟩ := (opcodeMapOk_iff.1 map).1 d mapped
  exact ⟨fun same => Bool.false_ne_true (notOpen.symm.trans (same ▸ isOpen)),
    fun same => Bool.false_ne_true (notBlank.symm.trans (same ▸ blank))⟩

theorem opcodeTable_distinct (map : opcodeMapOk c.opcodeMap = true) :
    ((sourceOpcodes ++ c.opcodeMap).map Prod.fst).Nodup ∧ ((sourceOpcodes ++ c.opcodeMap).map Prod.snd).Nodup := by
  obtain ⟨-, forms, bytes⟩ := opcodeMapOk_iff.1 map
  simp only [List.map_append, List.nodup_append, List.forall_mem_map]
  exact ⟨⟨sourceOpcodes_distinct.1, forms, fun e source d mapped => (source_row_ne_map_row map source mapped).1⟩,
    ⟨sourceOpcodes_distinct.2, bytes, fun e source d mapped => (source_row_ne_map_row map source mapped).2⟩⟩

/-- Under an admissible `OPCODE_MAP` the table is one-to-one: each way of reading it undoes the other. -/
theorem opcodeOf_eq_some_iff (map : opcodeMapOk c.opcodeMap = true) : opcodeOf c f = some op ↔ formOf c op = some f := by
  obtain ⟨forms, bytes⟩ := opcodeTable_distinct map
  exact ⟨fun found => lookupForm_of_mem bytes (mem_of_lookupOpcode found),
    fun found => lookupOpcode_of_mem forms (mem_of_lookupForm found)⟩

/-- A form has a row in the table exactly when it is the source's or `OPCODE_MAP` names it. -/
theorem mem_opcodeTable_iff :
    f ∈ (sourceOpcodes ++ c.opcodeMap).map Prod.fst ↔ f.isOpen = false ∨ f ∈ c.opcodeMap.map Prod.fst := by
  rw [List.map_append, List.mem_append]
  refine or_congr_left ⟨fun source => ?_, mem_source_of_not_isOpen⟩
  obtain ⟨e, row, rfl⟩ := List.mem_map.1 source
  exact (source_row_assigned e row).1

/-- An instruction is well formed exactly when its form has an opcode byte. -/
theorem Instr.wf_iff {i : Instr} (map : opcodeMapOk c.opcodeMap = true) :
    i.wf c = true ↔ ∃ op, opcodeOf c i.form = some op := by
  rw [Instr.wf, Bool.or_eq_true, Bool.not_eq_true', List.contains_iff_mem, ← mem_opcodeTable_iff]
  constructor
  · intro row
    obtain ⟨⟨f, op⟩, row, same⟩ := List.mem_map.1 row
    exact ⟨op, lookupOpcode_of_mem (opcodeTable_distinct map).1 (same ▸ row)⟩
  · rintro ⟨op, found⟩
    exact List.mem_map_of_mem (f := Prod.fst) (mem_of_lookupOpcode found)

/-- A blank byte that `OPCODE_MAP` does not assign selects no form (rules R97, R99). -/
theorem formOf_of_unassigned (blank : opcodeIsBlank op = true) (unassigned : ∀ e ∈ c.opcodeMap, e.2 ≠ op) :
    formOf c op = none := by
  cases form : formOf c op with
  | none => rfl
  | some f =>
    obtain source | mapped := List.mem_append.1 (mem_of_lookupForm form)
    · exact absurd ((source_row_assigned _ source).2.symm.trans blank) Bool.false_ne_true
    · exact absurd rfl (unassigned _ mapped)

end OpcodeTable

/-- Settles O5: the 16 rows are those of the source's table, each with its format. -/
theorem sourceOpcodesUnderEveryMap : Obligations.SourceOpcodesUnderEveryMap := by
  intro c op f fmt listed
  have source {rows : List (Byte × Form × Format)} (row : (op, f, fmt) ∈ rows)
      (all : ∀ e ∈ rows, (e.2.1, e.1) ∈ sourceOpcodes ∧ e.2.1.format = e.2.2) :
      (f, op) ∈ sourceOpcodes ∧ f.format = fmt := all _ row
  obtain ⟨row, format⟩ := source listed (by decide)
  obtain ⟨form, opcode⟩ := opcode_of_source_row row c
  exact ⟨form, opcode, format⟩

end Sys2Proof
end

section
/-! SUPPORT. The decoder and the encoder undo each other (`30_encoding.md` rules R90 to R101). Bytes that decode are read back
under any parameters; what is encoded is read back where the register codes are distinct and `OPCODE_MAP` is one-to-one. -/

namespace Sys2Proof

/-! ### The two bytes of an address -/

@[simp] theorem joinBytes_lowByte_highByte (v : Addr) : joinBytes (lowByte v) (highByte v) = v := by
  refine BitVec.eq_of_toNat_eq ?_
  rw [joinBytes_toNat, lowByte_toNat, highByte_toNat]
  omega

@[simp] theorem lowByte_joinBytes (lo hi : Byte) : lowByte (joinBytes lo hi) = lo := by
  have small : lo.toNat < 256 := lo.isLt
  refine BitVec.eq_of_toNat_eq ?_
  rw [lowByte_toNat, joinBytes_toNat]
  omega

@[simp] theorem highByte_joinBytes (lo hi : Byte) : highByte (joinBytes lo hi) = hi := by
  have small : lo.toNat < 256 := lo.isLt
  refine BitVec.eq_of_toNat_eq ?_
  rw [highByte_toNat, joinBytes_toNat]
  omega

/-! ### Bytes that decode, format by format -/

section DecodesFrom
variable {c : Config} {bs rest : List Byte} {i : Instr}

/-- A register byte that decodes is the code of the register it names. -/
theorem withReg_eq_ok_regCode {code : Byte} {k : Reg → Decoded} {d : Instr × List Byte} (h : withReg c code k = .ok d) :
    ∃ r, code = regCode c r ∧ k r = .ok d := by
  obtain ⟨r, names, hk⟩ := withReg_eq_ok.1 h
  exact ⟨r, (regCode_of_regOf names).symm, hk⟩

theorem decodeR_eq_ok {k : Reg → Instr} (h : decodeR c k bs = .ok (i, rest)) :
    ∃ r, i = k r ∧ bs = regCode c r :: rest := by
  match bs, h with
  | _ :: _, h =>
    obtain ⟨r, rfl, hk⟩ := withReg_eq_ok_regCode h
    cases hk
    exact ⟨r, rfl, rfl⟩

theorem decodeI8_eq_ok {k : Byte → Instr} (h : decodeI8 k bs = .ok (i, rest)) : ∃ v, i = k v ∧ bs = v :: rest := by
  match bs, h with
  | v :: _, h =>
    cases h
    exact ⟨v, rfl, rfl⟩

theorem decodeA16_eq_ok {k : Addr → Instr} (h : decodeA16 k bs = .ok (i, rest)) :
    ∃ adr, i = k adr ∧ bs = lowByte adr :: highByte adr :: rest := by
  match bs, h with
  | lo :: hi :: _, h =>
    cases h
    exact ⟨joinBytes lo hi, rfl, by rw [lowByte_joinBytes, highByte_joinBytes]⟩

theorem decodeRR_eq_ok {k : Reg → Reg → Instr} (h : decodeRR c k bs = .ok (i, rest)) :
    ∃ rd rs, i = k rd rs ∧ bs = regCode c rd :: regCode c rs :: rest := by
  match bs, h with
  | _ :: _ :: _, h =>
    obtain ⟨rd, rfl, hd⟩ := withReg_eq_ok_regCode h
    obtain ⟨rs, rfl, hs⟩ := withReg_eq_ok_regCode hd
    cases hs
    exact ⟨rd, rs, rfl, rfl⟩

theorem decodeRI8_eq_ok {k : Reg → Byte → Instr} (h : decodeRI8 c k bs = .ok (i, rest)) :
    ∃ rd v, i = k rd v ∧ bs = regCode c rd :: v :: rest := by
  match bs, h with
  | _ :: v :: _, h =>
    obtain ⟨rd, rfl, hk⟩ := withReg_eq_ok_regCode h
    cases hk
    exact ⟨rd, v, rfl, rfl⟩

theorem decodeRA16_eq_ok {k : Reg → Addr → Instr} (h : decodeRA16 c k bs = .ok (i, rest)) :
    ∃ rd adr, i = k rd adr ∧ bs = regCode c rd :: lowByte adr :: highByte adr :: rest := by
  match bs, h with
  | _ :: lo :: hi :: _, h =>
    obtain ⟨rd, rfl, hk⟩ := withReg_eq_ok_regCode h
    cases hk
    exact ⟨rd, joinBytes lo hi, rfl, by rw [lowByte_joinBytes, highByte_joinBytes]⟩

theorem decodeA16R_eq_ok {k : Addr → Reg → Instr} (h : decodeA16R c k bs = .ok (i, rest)) :
    ∃ adr rs, i = k adr rs ∧ bs = lowByte adr :: highByte adr :: regCode c rs :: rest := by
  match bs, h with
  | lo :: hi :: _ :: _, h =>
    obtain ⟨rs, rfl, hk⟩ := withReg_eq_ok_regCode h
    cases hk
    exact ⟨joinBytes lo hi, rs, rfl, by rw [lowByte_joinBytes, highByte_joinBytes]⟩

/-- Operand bytes that decode are those the encoder writes, of an instruction of the form asked for. -/
theorem decodeOperands_eq_ok {f : Form} (h : decodeOperands c f bs = .ok (i, rest)) :
    i.form = f ∧ bs = operandBytes c i ++ rest := by
  cases f with
  | movRR =>
    obtain ⟨rd, rs, rfl, rfl⟩ := decodeRR_eq_ok h
    exact ⟨rfl, rfl⟩
  | movRI =>
    obtain ⟨rd, v, rfl, rfl⟩ := decodeRI8_eq_ok h
    exact ⟨rfl, rfl⟩
  | movRA =>
    obtain ⟨rd, adr, rfl, rfl⟩ := decodeRA16_eq_ok h
    exact ⟨rfl, rfl⟩
  | movAR =>
    obtain ⟨adr, rs, rfl, rfl⟩ := decodeA16R_eq_ok h
    exact ⟨rfl, rfl⟩
  | jmp | jo | jno | js | jns | je | jne | jb | jnb | jbe | ja | jl | jge | jle | jg | addA | subA | adcA | lshA | rshA
  | orA | andA | xorA | callA | pushA | popA =>
    obtain ⟨adr, rfl, rfl⟩ := decodeA16_eq_ok h
    exact ⟨rfl, rfl⟩
  | addR | subR | adcR | lshR | rshR | orR | andR | xorR | pushR | popR | intR =>
    obtain ⟨r, rfl, rfl⟩ := decodeR_eq_ok h
    exact ⟨rfl, rfl⟩
  | pushI | intI =>
    obtain ⟨v, rfl, rfl⟩ := decodeI8_eq_ok h
    exact ⟨rfl, rfl⟩
  | cmp | inc | dec | ret | iret | cli | sei | hlt =>
    cases h
    exact ⟨rfl, rfl⟩

end DecodesFrom

/-! ### Bytes that were encoded, format by format -/

section DecodesTo
variable {c : Config}

theorem withReg_regCode (codes : c.regCodesOk = true) (r : Reg) (k : Reg → Decoded) : withReg c (regCode c r) k = k r := by
  simp only [withReg, regOf_regCode codes]

theorem decodeA16_bytes (k : Addr → Instr) (adr : Addr) (rest : List Byte) :
    decodeA16 k (lowByte adr :: highByte adr :: rest) = .ok (k adr, rest) := by
  rw [decodeA16, joinBytes_lowByte_highByte]

theorem decodeR_regCode (codes : c.regCodesOk = true) (k : Reg → Instr) (r : Reg) (rest : List Byte) :
    decodeR c k (regCode c r :: rest) = .ok (k r, rest) := withReg_regCode codes r _

theorem decodeRA16_bytes (codes : c.regCodesOk = true) (k : Reg → Addr → Instr) (r : Reg) (adr : Addr) (rest : List Byte) :
    decodeRA16 c k (regCode c r :: lowByte adr :: highByte adr :: rest) = .ok (k r adr, rest) := by
  rw [decodeRA16, withReg_regCode codes, joinBytes_lowByte_highByte]

theorem decodeA16R_bytes (codes : c.regCodesOk = true) (k : Addr → Reg → Instr) (adr : Addr) (r : Reg) (rest : List Byte) :
    decodeA16R c k (lowByte adr :: highByte adr :: regCode c r :: rest) = .ok (k adr r, rest) := by
  rw [decodeA16R, withReg_regCode codes, joinBytes_lowByte_highByte]

/-- The operand bytes of an instruction, whatever follows them, decode to it. -/
theorem decodeOperands_operandBytes (codes : c.regCodesOk = true) (i : Instr) (rest : List Byte) :
    decodeOperands c i.form (operandBytes c i ++ rest) = .ok (i, rest) := by
  cases i with
  | movRR rd rs => exact (withReg_regCode codes rd _).trans (withReg_regCode codes rs _)
  | movRI rd imm => exact withReg_regCode codes rd _
  | movRA rd adr => exact decodeRA16_bytes codes _ rd adr rest
  | movAR adr rs => exact decodeA16R_bytes codes _ adr rs rest
  | jmp adr | jo adr | jno adr | js adr | jns adr | je adr | jne adr | jb adr | jnb adr | jbe adr | ja adr | jl adr
  | jge adr | jle adr | jg adr | addA adr | subA adr | adcA adr | lshA adr | rshA adr | orA adr | andA adr | xorA adr
  | callA adr | pushA adr | popA adr => exact decodeA16_bytes _ adr rest
  | addR r | subR r | adcR r | lshR r | rshR r | orR r | andR r | xorR r | pushR r | popR r | intR r =>
    exact decodeR_regCode codes _ r rest
  | pushI | intI | cmp | inc | dec | ret | iret | cli | sei | hlt => rfl

end DecodesTo

/-! ### Whole instructions -/

section Instructions
variable {c : Config} {i : Instr} {op : Byte}

theorem encode_of_opcodeOf (opcode : opcodeOf c i.form = some op) : encode c i = some (op :: operandBytes c i) := by
  rw [encode, opcode, Option.map_some]

theorem decode_of_formOf {f : Form} (form : formOf c op = some f) (bs : List Byte) :
    decode c (op :: bs) = decodeOperands c f bs := by
  simp only [decode, form]

/-- Bytes that decode are an opcode byte of the instruction's form, its operand bytes, and the rest, under any parameters. -/
theorem decode_eq_ok_bytes {w rest : List Byte} (h : decode c w = .ok (i, rest)) :
    ∃ op, formOf c op = some i.form ∧ w = op :: (operandBytes c i ++ rest) := by
  obtain ⟨op, bs, f, rfl, form, operands⟩ := decode_eq_ok h
  obtain ⟨rfl, rfl⟩ := decodeOperands_eq_ok operands
  exact ⟨op, form, rfl⟩

end Instructions

/-- Settles O1: the opcode byte is read back because the opcode table is one-to-one, the operand bytes because the register
codes are distinct. -/
theorem decodeOfEncodeIsInstr : Obligations.DecodeOfEncodeIsInstr := by
  intro c i rest wf instrWf
  obtain ⟨map, codes, -⟩ := Config.wf_iff.1 wf
  obtain ⟨op, opcode⟩ := (Instr.wf_iff map).1 instrWf
  refine ⟨_, encode_of_opcodeOf opcode, ?_⟩
  rw [List.cons_append, decode_of_formOf ((opcodeOf_eq_some_iff map).1 opcode)]
  exact decodeOperands_operandBytes codes i rest

/-- Settles O2: the operand bytes are the encoder's under any parameters; the opcode byte is, because a form has but one. -/
theorem encodeOfDecodeIsBytes : Obligations.EncodeOfDecodeIsBytes := by
  intro c i bs rest wf decodes
  obtain ⟨map, -, -⟩ := Config.wf_iff.1 wf
  obtain ⟨op, form, rfl⟩ := decode_eq_ok_bytes decodes
  have opcode := (opcodeOf_eq_some_iff map).2 form
  exact ⟨(Instr.wf_iff map).2 ⟨op, opcode⟩, _, encode_of_opcodeOf opcode, rfl⟩

theorem Form.one_le_length (f : Form) : 1 ≤ f.length := by
  unfold Form.length
  cases f.format <;> decide

/-- Settles O4: the form that the opcode byte selects is that of the instruction, and its operand bytes are those decoded. -/
theorem opcodeAloneFixesFormAndLength : Obligations.OpcodeAloneFixesFormAndLength := by
  intro c op bs rest i decodes
  obtain ⟨op', form, same⟩ := decode_eq_ok_bytes decodes
  obtain rfl : op = op' := (List.cons.inj same).1
  rw [decode_of_formOf form] at decodes
  have count := decodeOperands_length decodes
  have positive := i.form.one_le_length
  rw [List.length_cons]
  exact ⟨form, by omega⟩

/-- An instruction of the source's table is encoded with its byte there, and read back, if its operand bytes are. -/
theorem source_word_decodes {i : Instr} {op : Byte} (row : (i.form, op) ∈ sourceOpcodes) {c : Config} {rest : List Byte}
    (operands : decodeOperands c i.form (operandBytes c i ++ rest) = .ok (i, rest)) :
    encode c i = some (op :: operandBytes c i) ∧ decode c (op :: (operandBytes c i ++ rest)) = .ok (i, rest) := by
  obtain ⟨form, opcode⟩ := opcode_of_source_row row c
  exact ⟨encode_of_opcodeOf opcode, (decode_of_formOf form _).trans operands⟩

/-- Settles O3: the three words are of the source's table, and their operand bytes, none a register code, are evaluated. -/
theorem workedEncodingsDecode : Obligations.WorkedEncodingsDecode := fun _ _ =>
  ⟨source_word_decodes (i := .jne 0x1234) (by decide) rfl, source_word_decodes (i := .hlt) (by decide) rfl,
    source_word_decodes (i := .jmp 0x0000) (by decide) rfl⟩

end Sys2Proof
end

section
/-! SUPPORT. What a fetch does with the bytes at PC and what it stops with (`30_encoding.md` rules R95, R99, R100;
`60_exceptions.md` rule R235): all bytes of a form are there before one is decoded, so that none stops as cut short. -/

namespace Sys2Proof

/-! ### Register bytes that are no codes -/

section BadCodes
variable {c : Config} {bs : List Byte} {e : DecodeError}

theorem withReg_of_no_code {v : Byte} (noCode : ∀ r, regCode c r ≠ v) (k : Reg → Decoded) :
    withReg c v k = .error (.illegalRegCode v) := by
  simp only [withReg, regOf_eq_none_iff.2 noCode]

/-- A byte that is the code of a register names one, be it another under equal codes. -/
theorem withReg_of_code (r : Reg) (k : Reg → Decoded) : ∃ q, withReg c (regCode c r) k = k q := by
  cases names : regOf c (regCode c r) with
  | none => exact absurd rfl (regOf_eq_none_iff.1 names r)
  | some q => exact ⟨q, by simp only [withReg, names]⟩

/-- `e` is the stop at a register byte that is no code (rule R95). -/
def DecodeError.IsBadReg (c : Config) (e : DecodeError) : Prop :=
  ∃ v, e = .illegalRegCode v ∧ ∀ r, regCode c r ≠ v

theorem withReg_error {v : Byte} {k : Reg → Decoded} (h : withReg c v k = .error e)
    (rest : ∀ r, k r = .error e → e.IsBadReg c) : e.IsBadReg c := by
  cases names : regOf c v with
  | none =>
    have noCode := regOf_eq_none_iff.1 names
    rw [withReg_of_no_code noCode] at h
    cases h
    exact ⟨v, rfl, noCode⟩
  | some r =>
    simp only [withReg, names] at h
    exact rest r h

theorem decodeR_error {k : Reg → Instr} (h : decodeR c k bs = .error e) (enough : 1 ≤ bs.length) : e.IsBadReg c := by
  match bs, enough, h with
  | _ :: _, _, h => exact withReg_error h nofun

theorem decodeI8_ne_error {k : Byte → Instr} (enough : 1 ≤ bs.length) : decodeI8 k bs ≠ .error e := by
  match bs, enough with
  | _ :: _, _ => nofun

theorem decodeA16_ne_error {k : Addr → Instr} (enough : 2 ≤ bs.length) : decodeA16 k bs ≠ .error e := by
  match bs, enough with
  | _ :: _ :: _, _ => nofun

theorem decodeRR_error {k : Reg → Reg → Instr} (h : decodeRR c k bs = .error e) (enough : 2 ≤ bs.length) :
    e.IsBadReg c := by
  match bs, enough, h with
  | _ :: _ :: _, _, h => exact withReg_error h fun _ second => withReg_error second nofun

theorem decodeRI8_error {k : Reg → Byte → Instr} (h : decodeRI8 c k bs = .error e) (enough : 2 ≤ bs.length) :
    e.IsBadReg c := by
  match bs, enough, h with
  | _ :: _ :: _, _, h => exact withReg_error h nofun

theorem decodeRA16_error {k : Reg → Addr → Instr} (h : decodeRA16 c k bs = .error e) (enough : 3 ≤ bs.length) :
    e.IsBadReg c := by
  match bs, enough, h with
  | _ :: _ :: _ :: _, _, h => exact withReg_error h nofun

theorem decodeA16R_error {k : Addr → Reg → Instr} (h : decodeA16R c k bs = .error e) (enough : 3 ≤ bs.length) :
    e.IsBadReg c := by
  match bs, enough, h with
  | _ :: _ :: _ :: _, _, h => exact withReg_error h nofun

/-- Where all operand bytes of a form are there, nothing but a bad register byte stops the decoder. -/
theorem decodeOperands_error {f : Form} (h : decodeOperands c f bs = .error e) (enough : f.length - 1 ≤ bs.length) :
    e.IsBadReg c := by
  cases f with
  | movRR => exact decodeRR_error h enough
  | movRI => exact decodeRI8_error h enough
  | movRA => exact decodeRA16_error h enough
  | movAR => exact decodeA16R_error h enough
  | jmp | jo | jno | js | jns | je | jne | jb | jnb | jbe | ja | jl | jge | jle | jg | addA | subA | adcA | lshA | rshA
  | orA | andA | xorA | callA | pushA | popA => exact absurd h (decodeA16_ne_error enough)
  | addR | subR | adcR | lshR | rshR | orR | andR | xorR | pushR | popR | intR => exact decodeR_error h enough
  | pushI | intI => exact absurd h (decodeI8_ne_error enough)
  | cmp | inc | dec | ret | iret | cli | sei | hlt => cases h

end BadCodes

end Sys2Proof

namespace Sys2Proof.Machine

/-! ### The first bad register byte of a format -/

/-- The bytes `op :: bs` have the length of the format, and byte `k`, which is `v`, is the first of its register bytes that is
no code (rules R92, R95). -/
structure FirstBadReg (c : Config) (fmt : Format) (op : Byte) (bs : List Byte) (k : Nat) (v : Byte) : Prop where
  length : (op :: bs).length = fmt.length
  register : k ∈ regBytes fmt
  byte : (op :: bs)[k]? = some v
  noCode : ∀ r, regCode c r ≠ v
  before : ∀ j ∈ regBytes fmt, j < k → ∃ r, (op :: bs)[j]? = some (regCode c r)

section FirstBadReg
variable {c : Config} {fmt : Format} {op v : Byte} {bs : List Byte} {k : Nat}

/-- Where a format has one register byte, that is the bad one. -/
theorem FirstBadReg.byte_of_single (h : FirstBadReg c fmt op bs k v) {n : Nat} (single : regBytes fmt = [n + 1]) :
    bs[n]? = some v := by
  obtain rfl : k = n + 1 := List.mem_singleton.1 (single ▸ h.register)
  exact h.byte

theorem decodeR_of_firstBadReg (h : FirstBadReg c .opR op bs k v) (i : Reg → Instr) :
    decodeR c i bs = .error (.illegalRegCode v) := by
  obtain ⟨u, rfl⟩ := List.length_eq_one_iff.1 (Nat.succ.inj h.length)
  obtain rfl : u = v := Option.some.inj (h.byte_of_single rfl)
  exact withReg_of_no_code h.noCode _

theorem decodeRI8_of_firstBadReg (h : FirstBadReg c .opRI8 op bs k v) (i : Reg → Byte → Instr) :
    decodeRI8 c i bs = .error (.illegalRegCode v) := by
  obtain ⟨u, imm, rfl⟩ := List.length_eq_two.1 (Nat.succ.inj h.length)
  obtain rfl : u = v := Option.some.inj (h.byte_of_single rfl)
  exact withReg_of_no_code h.noCode _

theorem decodeRA16_of_firstBadReg (h : FirstBadReg c .opRA16 op bs k v) (i : Reg → Addr → Instr) :
    decodeRA16 c i bs = .error (.illegalRegCode v) := by
  obtain ⟨u, lo, hi, rfl⟩ := List.length_eq_three.1 (Nat.succ.inj h.length)
  obtain rfl : u = v := Option.some.inj (h.byte_of_single rfl)
  exact withReg_of_no_code h.noCode _

theorem decodeA16R_of_firstBadReg (h : FirstBadReg c .opA16R op bs k v) (i : Addr → Reg → Instr) :
    decodeA16R c i bs = .error (.illegalRegCode v) := by
  obtain ⟨lo, hi, u, rfl⟩ := List.length_eq_three.1 (Nat.succ.inj h.length)
  obtain rfl : u = v := Option.some.inj (h.byte_of_single rfl)
  exact withReg_of_no_code h.noCode _

/-- The destination's byte is decoded first; the source's is come to only where the destination's is a code (rule R235). -/
theorem decodeRR_of_firstBadReg (h : FirstBadReg c .opRR op bs k v) (i : Reg → Reg → Instr) :
    decodeRR c i bs = .error (.illegalRegCode v) := by
  obtain ⟨d, u, rfl⟩ := List.length_eq_two.1 (Nat.succ.inj h.length)
  have place : k = 1 ∨ k = 2 := by simpa [regBytes] using h.register
  obtain rfl | rfl := place
  · obtain rfl : d = v := Option.some.inj h.byte
    exact withReg_of_no_code h.noCode _
  · obtain rfl : u = v := Option.some.inj h.byte
    obtain ⟨r, code⟩ := h.before 1 List.mem_cons_self (by decide)
    obtain rfl : d = regCode c r := Option.some.inj code
    obtain ⟨q, named⟩ := withReg_of_code (c := c) r fun rd => withReg c u fun rs => .ok (i rd rs, [])
    exact named.trans (withReg_of_no_code h.noCode _)

/-- The decoder stops at the first register byte of the form that is no code (rules R95, R235). -/
theorem decodeOperands_of_firstBadReg {f : Form} (h : FirstBadReg c f.format op bs k v) :
    decodeOperands c f bs = .error (.illegalRegCode v) := by
  cases f with
  | movRR => exact decodeRR_of_firstBadReg h _
  | movRI => exact decodeRI8_of_firstBadReg h _
  | movRA => exact decodeRA16_of_firstBadReg h _
  | movAR => exact decodeA16R_of_firstBadReg h _
  | addR | subR | adcR | lshR | rshR | orR | andR | xorR | pushR | popR | intR => exact decodeR_of_firstBadReg h _
  | jmp | jo | jno | js | jns | je | jne | jb | jnb | jbe | ja | jl | jge | jle | jg | addA | subA | adcA | lshA | rshA
  | orA | andA | xorA | callA | pushA | popA | pushI | intI | cmp | inc | dec | ret | iret | cli | sei | hlt =>
    exact absurd h.register List.not_mem_nil

end FirstBadReg

/-! ### The fetch of an opcode byte that memory holds -/

section Opcode
variable {s : State} {op : Byte}

theorem fetch_of_form {f : Form} (readable : s.readable s.pc) (held : s.peek s.pc = some op)
    (form : formOf s.cfg op = some f) : fetch s = fetchOperands f { s with pc := s.pc + 1, mar := s.pc } := by
  rw [fetch, fetchByte_of_listed readable held, andThen_next]
  simp only [form]

theorem fetch_of_no_form (readable : s.readable s.pc) (held : s.peek s.pc = some op) (noForm : formOf s.cfg op = none) :
    fetch s = .fault (.illegalOpcode op (s.pc + 1)) := by
  rw [fetch, fetchByte_of_listed readable held, andThen_next]
  simp only [noForm, decodeFault]

/-- Where all bytes of a form stand at PC and do not decode, the fetch stops as the decoder does. -/
theorem fetch_of_decode_error {f : Form} {bs : List Byte} {e : DecodeError} (code : s.codeAt s.pc (op :: bs))
    (form : formOf s.cfg op = some f) (length : (op :: bs).length = f.length)
    (error : decodeOperands s.cfg f bs = .error e) :
    fetch s = .fault (decodeFault (s.pc + BitVec.ofNat 16 (op :: bs).length) e) := by
  obtain ⟨readable, held, rest⟩ := code
  have count : f.length - 1 = bs.length := by rw [← length, List.length_cons, Nat.add_sub_cancel]
  have behind : s.pc = s.pc + 1 - 1 := (BitVec.add_sub_cancel s.pc 1).symm
  have tail := fetchBytes_of_codeAt (s := { s with pc := s.pc + 1, mar := s.pc }) (codeAt_of_same_mem rest rfl rfl) behind
  rw [fetch_of_form readable held form, fetchOperands, count, tail, andThen_next, List.length_cons, addr_add_succ]
  simp only [error]

end Opcode

/-- Settles O10: the byte is in neither part of the opcode table. -/
theorem unassignedOpcodeFaults : Obligations.UnassignedOpcodeFaults := by
  intro s op running readable held blank unassigned
  rw [step_of_running running, fetch_of_no_form readable held (formOf_of_unassigned blank unassigned), andThen_fault]

/-- Settles O8: the fetch answers the instruction that the bytes spell, and the step executes it. -/
theorem stepRunsDecodedInstr : Obligations.StepRunsDecodedInstr := fun _ _ _ running code decodes =>
  step_of_codeAt running code decodes

/-! ### What a fetch and a step stop with -/

theorem andThen_eq_fault {α β : Type} {o : Res α} {k : α → Res β} {e : Fault} :
    andThen o k = .fault e ↔ o = .fault e ∨ ∃ v, o = .next v ∧ k v = .fault e := by
  cases o <;> simp

section Stops
variable {s : State} {e : Fault}

theorem fetchByte_stopsByMap : StopsByMap s.cfg [] (fetchByte s) :=
  (memRead_stopsByMap rfl).andThen fun _ _ => stopsByMap_next _

theorem fetchBytes_stopsByMap {c : Config} (n : Nat) (cfg : s.cfg = c) : StopsByMap c [] (fetchBytes n s) := by
  induction n generalizing s with
  | zero => exact stopsByMap_next _
  | succ n ih =>
    subst cfg
    refine fetchByte_stopsByMap.andThen fun ⟨v, s1⟩ h => ?_
    obtain ⟨⟨d, rfl⟩, -⟩ := fetchByte_next h
    exact StopsByMap.andThen (ih rfl) fun _ _ => stopsByMap_next _

/-- The faults of a fetch under the parameters `c`: an absent address, an opcode byte without a form, a register byte that is no
code (rules R69, R95, R99). -/
inductive FetchFault (c : Config) : Fault → Prop where
  | absentMemory (adr : Addr) : FetchFault c (.absentMemory adr)
  | illegalOpcode (op : Byte) (pc : Addr) : FetchFault c (.illegalOpcode op pc)
  | illegalRegCode {v : Byte} (noCode : ∀ r, regCode c r ≠ v) : FetchFault c (.illegalRegCode v)

theorem StopsByMap.fetchFault {α : Type} {c : Config} {o : Res α} (h : StopsByMap c [] o) (fault : o = .fault e) :
    FetchFault c e := by
  obtain ⟨adr, rfl, -⟩ | ⟨adr, -, -, store⟩ := h.fault e fault
  · exact .absentMemory adr
  · exact absurd store List.not_mem_nil

/-- All operand bytes are fetched, so that the decoder stops only at a bad register byte. -/
theorem fetchOperands_fault {f : Form} (h : fetchOperands f s = .fault e) : FetchFault s.cfg e := by
  obtain h | ⟨⟨bs, s1⟩, fetched, h⟩ := andThen_eq_fault.1 h
  · exact (fetchBytes_stopsByMap _ rfl).fetchFault h
  · obtain ⟨count, m, d, rfl⟩ := fetchBytes_next fetched
    dsimp only at h
    split at h
    · cases h
    next err error =>
      obtain ⟨v, rfl, noCode⟩ := decodeOperands_error error count.ge
      cases h
      exact .illegalRegCode noCode

theorem fetch_fault (h : fetch s = .fault e) : FetchFault s.cfg e := by
  obtain h | ⟨⟨op, s1⟩, fetched, h⟩ := andThen_eq_fault.1 h
  · exact fetchByte_stopsByMap.fetchFault h
  · obtain ⟨⟨d, rfl⟩, -⟩ := fetchByte_next fetched
    dsimp only at h
    split at h
    · exact fetchOperands_fault (s := { s with pc := s.pc + 1, mar := s.pc, draws := d }) h
    · cases h
      exact .illegalOpcode op _

/-- A step stops as its fetch does, or at a store to rom, which only an instruction makes (rule R69). -/
theorem step_fault (h : step s = .fault e) : FetchFault s.cfg e ∨ ∃ adr, e = .writeToRom adr := by
  cases halted : s.halted with
  | true =>
    rw [step, if_pos halted] at h
    cases h
  | false =>
    rw [step_of_running halted] at h
    obtain h | ⟨⟨i, s1⟩, -, h⟩ := andThen_eq_fault.1 h
    · exact .inl (fetch_fault h)
    · obtain ⟨adr, rfl, -⟩ | ⟨adr, rfl, -⟩ := (stopsNameTheirCause i s1).1 e h
      · exact .inl (.absentMemory adr)
      · exact .inr ⟨adr, rfl⟩

end Stops

/-- Settles O15: the faults of a step are listed, and a cut short instruction is not among them. -/
theorem stepNeverCutsInstrShort : Obligations.StepNeverCutsInstrShort := by
  intro s h
  obtain fault | ⟨adr, fault⟩ := step_fault h <;> cases fault

/-- Settles O11: the decoder stops at the first bad register byte once all bytes are read; an absent byte stops the read; and
where a step stops at a register byte, the decoder found that it names no register. -/
theorem badRegisterCodeFaults : Obligations.BadRegisterCodeFaults := by
  refine ⟨fun s op f w k v running code head form length register byte noCode before => ?_,
    fun s op f k running held form within readable absent =>
      (step_stopsRead_operand running held form within readable).1 absent, fun s v h => ?_⟩
  · obtain ⟨bs, rfl⟩ := List.head?_eq_some_iff.1 head
    have bad : FirstBadReg s.cfg f.format op bs k v := ⟨length, register, byte, noCode, before⟩
    rw [step_of_running running, fetch_of_decode_error code form length (decodeOperands_of_firstBadReg bad), andThen_fault]
    rfl
  · obtain fault | ⟨adr, fault⟩ := step_fault h
    · cases fault with
      | illegalRegCode noCode => exact noCode
    · cases fault

end Sys2Proof.Machine
end

section
/-! SUPPORT. What a MOV does to the whole state, operand by operand (`40_move.md` rules R130 to R133, `10_state.md` rule R33). -/

namespace Sys2Proof.Machine

section Move
variable {s : State} {adr : Addr} {v : Byte}

/-! ### Operands -/

/-- A register is always read: a byte it may deliver, and only the counter of free values moves (rules R32, R33). -/
theorem readSource_reg (rs : Reg) (s : State) :
    ∃ v d, s.regDelivers rs v ∧ readSource (.reg rs) s = .next (v, { s with draws := d }) := by
  obtain ⟨d, after⟩ := readReg_state rs s
  exact ⟨(readReg rs s).1, d, readReg_delivers rs s, by rw [readSource, ← after]⟩

/-- A readable byte is read: a value it may deliver, and only MAR and the counter of free values move (rules R64, R69). -/
theorem readSource_mem (readable : s.readable adr) :
    ∃ v d, s.delivers adr v ∧ readSource (.mem adr) s = .next (v, { s with mar := adr, draws := d }) := by
  obtain ⟨v, t, read⟩ := memRead_completes readable
  obtain ⟨-, ⟨d, rfl⟩, delivered⟩ := memRead_next read
  exact ⟨v, d, delivered, read⟩

/-- The model's register write, of SR its five bits, is the one that the statements speak of (rule R33). -/
theorem writeReg_eq_withReg (r : Reg) (v : Byte) (s : State) : writeReg r v s = s.withReg r v := by cases r <;> rfl

/-! ### Moves -/

/-- A move to a register completes once its source is read. -/
theorem move_to_reg {src : Source} {s1 : State} (read : readSource src s = .next (v, s1)) (rd : Reg) :
    move (.reg rd) src s = .next (s1.withReg rd v) := by
  rw [move, read, andThen_next, writeDest, writeReg_eq_withReg]

/-- A move to memory completes once its source is read, if the address is ram. -/
theorem move_to_mem {src : Source} {s1 : State} (read : readSource src s = .next (v, s1)) (ram : s1.writable adr) :
    move (.mem adr) src s = .next { s1 with mem := s1.mem.write adr v, mar := adr } := by
  rw [move, read, andThen_next]
  exact memWrite_eq_next.2 ⟨ram, rfl⟩

/-- `MOV adr, reg` to ram is the store of a byte that the register delivers (rule R133). -/
theorem exec_movAR (ram : s.writable adr) (rs : Reg) :
    ∃ v d, s.regDelivers rs v
      ∧ exec (.movAR adr rs) s = .next { s with mem := s.mem.write adr v, mar := adr, draws := d } := by
  obtain ⟨v, d, delivered, read⟩ := readSource_reg rs s
  exact ⟨v, d, delivered, move_to_mem read ram⟩

end Move

/-- Settles O28: a constant and a register are always read, a byte of memory where it is readable; the register write completes. -/
theorem movToRegisterCompletes : Obligations.MovToRegisterCompletes := by
  intro s rd
  refine ⟨fun imm => move_to_reg (src := .imm imm) rfl rd, fun rs => ?_, fun adr readable => ?_⟩
  · obtain ⟨v, d, delivered, read⟩ := readSource_reg rs s
    exact ⟨v, d, delivered, move_to_reg read rd⟩
  · obtain ⟨v, d, delivered, read⟩ := readSource_mem readable
    exact ⟨v, adr, d, delivered, move_to_reg read rd⟩

/-- Settles O29: the one store of MOV is read back at its address and nowhere else. -/
theorem movToMemoryCompletes : Obligations.MovToMemoryCompletes := by
  intro s adr rs ram
  obtain ⟨v, d, delivered, completes⟩ := exec_movAR ram rs
  exact ⟨v, _, delivered, completes, rfl, Memory.read_write_same s.mem adr v, (storesTo_one ram rfl).frame⟩

end Sys2Proof.Machine
end

section
/-! SUPPORT. The jumps (`41_jump.md`): the table of their opcodes and conditions, what a row of it says of a jump, and what the
conditions say of A and B once the flags are those of A - B. -/

namespace Sys2Proof.Machine

/-! ### The table of the jumps -/

/-- The source's table of the 15 jumps: the jump `i` has the opcode `op` and is taken on the flags that `cond` accepts (rules R141
to R155), which are those whose row has a 1 in `taken` (`95_test_vectors.md` section 2.3). -/
inductive JumpRow : (Addr → Instr) → Byte → (Status → Bool) → BitVec 16 → Prop where
  | jmp : JumpRow .jmp 0xD0 (fun _ => true) 0xFFFF
  | jo : JumpRow .jo 0xD1 condO 0xFF00
  | jno : JumpRow .jno 0xD2 condNO 0x00FF
  | js : JumpRow .js 0xD3 condS 0xF0F0
  | jns : JumpRow .jns 0xD4 condNS 0x0F0F
  | je : JumpRow .je 0xD5 condE 0xCCCC
  | jne : JumpRow .jne 0xD6 condNE 0x3333
  | jb : JumpRow .jb 0xD7 condB 0xAAAA
  | jnb : JumpRow .jnb 0xD8 condNB 0x5555
  | jbe : JumpRow .jbe 0xD9 condBE 0xEEEE
  | ja : JumpRow .ja 0xDA condA 0x1111
  | jl : JumpRow .jl 0xDB condL 0x0FF0
  | jge : JumpRow .jge 0xDC condGE 0xF00F
  | jle : JumpRow .jle 0xDD condLE 0xCFFC
  | jg : JumpRow .jg 0xDE condG 0x3003

section Jumps
variable {i j : Addr → Instr} {op opj : Byte} {cond condj : Status → Bool} {taken takenj : BitVec 16} {s : State}

/-- The opcode of a row is the source's (rule R96), which no `OPCODE_MAP` changes. -/
theorem JumpRow.encode_eq (row : JumpRow i op cond taken) (c : Config) (adr : Addr) :
    encode c (i adr) = some [op, lowByte adr, highByte adr] := by
  have source : ((i adr).form, op) ∈ sourceOpcodes := by cases row <;> simp [Instr.form, sourceOpcodes]
  have operands : operandBytes c (i adr) = [lowByte adr, highByte adr] := by cases row <;> rfl
  rw [encode_of_opcodeOf (opcode_of_source_row source c).2, operands]

/-- Every jump is `jumpIf` on its condition (rule R140). -/
theorem JumpRow.exec_eq (row : JumpRow i op cond taken) (adr : Addr) (s : State) :
    exec (i adr) s = .next { s with pc := if cond s.sr then adr else s.pc } := by
  have meaning : exec (i adr) s = jumpIf (cond s.sr) adr s := by cases row <;> rfl
  rw [meaning, jumpIf_eq]

/-- The two ways of saying when a jump is taken agree on each of the flags' values. -/
theorem JumpRow.taken_eq (row : JumpRow i op cond taken) (st : Status) : taken.getLsbD st.flagRow = cond st := by
  obtain ⟨ie, of, sf, zf, cf⟩ := st
  revert ie of sf zf cf
  cases row <;> decide

theorem JumpRow.jumpsBy (row : JumpRow i op cond taken) (s : State) (adr : Addr) : JumpsBy op taken i s adr :=
  ⟨row.encode_eq s.cfg adr, by rw [row.taken_eq, row.exec_eq]⟩

theorem JumpRow.takes (row : JumpRow i op cond taken) (holds : cond s.sr = true) : Takes i s := fun adr => by
  rw [row.exec_eq, if_pos holds]

theorem JumpRow.fallsThrough (row : JumpRow i op cond taken) (fails : cond s.sr = false) : FallsThrough i s := fun adr => by
  rw [row.exec_eq, if_neg (Bool.eq_false_iff.1 fails)]

/-- A target other than PC tells the two apart. -/
theorem FallsThrough.not_takes (falls : FallsThrough i s) : ¬ Takes i s := fun takes => by
  have same := Host.Outcome.next.inj ((falls (s.pc + 1)).symm.trans (takes (s.pc + 1)))
  have pc : s.pc = s.pc + 1 := congrArg State.pc same
  bv_omega

theorem JumpRow.takes_iff (row : JumpRow i op cond taken) : Takes i s ↔ cond s.sr = true := by
  cases holds : cond s.sr with
  | true => exact iff_of_true (row.takes holds) rfl
  | false => exact iff_of_false (row.fallsThrough holds).not_takes Bool.false_ne_true

/-- Of two jumps on opposite conditions exactly one is taken. -/
theorem JumpRow.oneTaken (row : JumpRow i op cond taken) (rowj : JumpRow j opj condj takenj)
    (opposite : ∀ st, condj st = !cond st) : OneTaken i j s := by
  cases holds : cond s.sr with
  | true => exact .inl ⟨row.takes holds, rowj.fallsThrough (by rw [opposite, holds, Bool.not_true])⟩
  | false => exact .inr ⟨row.fallsThrough holds, rowj.takes (by rw [opposite, holds, Bool.not_false])⟩

theorem OneTaken.takes_iff_not (one : OneTaken i j s) : Takes j s ↔ ¬ Takes i s := by
  obtain ⟨takes, falls⟩ | ⟨falls, takes⟩ := one
  · exact iff_of_false falls.not_takes (not_not_intro takes)
  · exact iff_of_true takes falls.not_takes

end Jumps

/-- Settles O32: nine rows of the table. -/
theorem oneFlagJumpsComplete : Obligations.OneFlagJumpsComplete := fun s adr =>
  ⟨JumpRow.jmp.jumpsBy s adr, JumpRow.jo.jumpsBy s adr, JumpRow.jno.jumpsBy s adr, JumpRow.js.jumpsBy s adr,
    JumpRow.jns.jumpsBy s adr, JumpRow.je.jumpsBy s adr, JumpRow.jne.jumpsBy s adr, JumpRow.jb.jumpsBy s adr,
    JumpRow.jnb.jumpsBy s adr⟩

/-- Settles O33: the other six rows. -/
theorem manyFlagJumpsComplete : Obligations.ManyFlagJumpsComplete := fun s adr =>
  ⟨JumpRow.jbe.jumpsBy s adr, JumpRow.ja.jumpsBy s adr, JumpRow.jl.jumpsBy s adr, JumpRow.jge.jumpsBy s adr,
    JumpRow.jle.jumpsBy s adr, JumpRow.jg.jumpsBy s adr⟩

/-- The pairs are of opposite conditions; for those on two and three flags that is De Morgan's law. -/
theorem oneTaken_of_each_pair (s : State) :
    OneTaken .jo .jno s ∧ OneTaken .js .jns s ∧ OneTaken .je .jne s ∧ OneTaken .jb .jnb s ∧ OneTaken .jbe .ja s
      ∧ OneTaken .jl .jge s ∧ OneTaken .jle .jg s :=
  ⟨JumpRow.jo.oneTaken .jno fun _ => rfl, JumpRow.js.oneTaken .jns fun _ => rfl, JumpRow.je.oneTaken .jne fun _ => rfl,
    JumpRow.jb.oneTaken .jnb fun _ => rfl, JumpRow.jbe.oneTaken .ja fun _ => (Bool.not_or _ _).symm,
    JumpRow.jl.oneTaken .jge fun _ => (Bool.not_not _).symm,
    JumpRow.jle.oneTaken .jg fun _ => by rw [condG, condLE, Bool.not_or, bne, Bool.not_not]⟩

/-! ### The flags of a subtraction in numbers (rule R161) -/

section SubFlags
variable {a b : Byte} {old new : Status}

/-- The model's bit formula of OF is the overflow of the signed difference. -/
theorem flagsSub_of_eq (a b : Byte) (st : Status) : (flagsSub a b st).of = a.ssubOverflow b := by
  rw [BitVec.ssubOverflow_eq, flagsSub, subResult]
  cases a.msb <;> cases b.msb <;> cases (a - b).msb <;> rfl

theorem flagsSub_subFlags (a b : Byte) (st : Status) : SubFlags a b st (flagsSub a b st) := by
  refine ⟨rfl, ?cf, ?zf, ?sf, ?of⟩
  case cf => exact decide_eq_true_iff
  case zf => exact decide_eq_true_iff.trans sub_eq_zero
  case sf =>
    have difference : (subResult a b).toNat = (a.toNat + 256 - b.toNat) % 256 := by rw [subResult]; bv_omega
    simp [← difference, flagsSub, BitVec.msb_eq_decide]
  case of =>
    rw [flagsSub_of_eq, BitVec.ssubOverflow, Bool.or_eq_true, decide_eq_true_iff, decide_eq_true_iff]
    omega

/-- The sign of the byte is that of the signed difference unless the difference overflows. -/
theorem SubFlags.sf_ne_of_iff (flags : SubFlags a b old new) : new.sf ≠ new.of ↔ a.toInt < b.toInt := by
  obtain ⟨-, -, -, sf, of⟩ := flags
  have ha := a.isLt
  have hb := b.isLt
  rw [Ne, Bool.eq_iff_iff, sf, of, BitVec.toInt_eq_toNat_cond, BitVec.toInt_eq_toNat_cond]
  omega

/-! ### What the conditions say after a subtraction (rules R146 to R155) -/

theorem SubFlags.condE_iff (flags : SubFlags a b old new) : condE new = true ↔ a = b := by
  obtain ⟨-, -, zf, -, -⟩ := flags
  exact zf

theorem SubFlags.condB_iff (flags : SubFlags a b old new) : condB new = true ↔ a.toNat < b.toNat := by
  obtain ⟨-, cf, -, -, -⟩ := flags
  exact cf

theorem SubFlags.condL_iff (flags : SubFlags a b old new) : condL new = true ↔ a.toInt < b.toInt :=
  bne_iff_ne.trans flags.sf_ne_of_iff

theorem SubFlags.condBE_iff (flags : SubFlags a b old new) : condBE new = true ↔ a.toNat ≤ b.toNat := by
  rw [Nat.le_iff_lt_or_eq, BitVec.toNat_inj, ← flags.condB_iff, ← flags.condE_iff]
  exact Bool.or_eq_true_iff

theorem SubFlags.condLE_iff (flags : SubFlags a b old new) : condLE new = true ↔ a.toInt ≤ b.toInt := by
  rw [Int.le_iff_lt_or_eq, BitVec.toInt_inj, or_comm, ← flags.condL_iff, ← flags.condE_iff]
  exact Bool.or_eq_true_iff

end SubFlags

/-! ### Comparisons -/

/-- SR is no destination of an ALU operation, so the flags are there afterwards (rules R164, R165). -/
theorem aluWrite_sr {dest : Dest} {v : Byte} {flags : Status} {s t : State} (h : aluWrite dest v flags s = .next t) :
    t.sr = flags := by
  obtain ⟨sr, mem, mar, rfl⟩ := aluWrite_regs h
  simp [sr]

/-- CMP and both forms of SUB leave the flags of A - B (rules R167, R174). -/
theorem subFlags_of_comparison {s t : State}
    (compared : exec .cmp s = .next t ∨ (∃ rd, exec (.subR rd) s = .next t) ∨ ∃ adr, exec (.subA adr) s = .next t) :
    SubFlags s.a s.b s.sr t.sr := by
  have sr : t.sr = flagsSub s.a s.b s.sr := by
    obtain cmp | ⟨rd, sub⟩ | ⟨adr, sub⟩ := compared
    · cases cmp; rfl
    · exact aluWrite_sr (dest := .reg rd) sub
    · exact aluWrite_sr (dest := .mem adr) sub
  rw [sr]
  exact flagsSub_subFlags s.a s.b s.sr

/-- Settles O34: one jump of each pair is taken as the flags of A - B say, and the other exactly when that one is not. -/
theorem jumpNamesFitComparison : Obligations.JumpNamesFitComparison := by
  refine ⟨oneTaken_of_each_pair, fun s t compared => ?_⟩
  have flags := subFlags_of_comparison compared
  obtain ⟨-, -, equal, below, belowEqual, less, lessEqual⟩ := oneTaken_of_each_pair t
  have je := JumpRow.je.takes_iff.trans flags.condE_iff
  have jb := JumpRow.jb.takes_iff.trans flags.condB_iff
  have jbe := JumpRow.jbe.takes_iff.trans flags.condBE_iff
  have jl := JumpRow.jl.takes_iff.trans flags.condL_iff
  have jle := JumpRow.jle.takes_iff.trans flags.condLE_iff
  exact ⟨je, equal.takes_iff_not.trans (not_congr je),
    jb, below.takes_iff_not.trans ((not_congr jb).trans Nat.not_lt),
    jbe, belowEqual.takes_iff_not.trans ((not_congr jbe).trans Nat.not_le),
    jl, less.takes_iff_not.trans ((not_congr jl).trans Int.not_lt),
    jle, lessEqual.takes_iff_not.trans ((not_congr jle).trans Int.not_le)⟩

end Sys2Proof.Machine
end

section
/-! SUPPORT. The results and the flags of the ALU in numbers (`42_alu.md` rules R160 to R163, R177). -/

namespace Sys2Proof.Machine

/-! ### Results -/

section Results
variable (a b : Byte) (cin : Bool)

@[simp] theorem addResult_toNat : (addResult a b cin).toNat = (a.toNat + b.toNat + cin.toNat) % 256 := BitVec.toNat_ofNat _ _

theorem addResult_no_carry : addResult a b false = a + b := by
  apply BitVec.eq_of_toNat_eq
  rw [addResult_toNat, BitVec.toNat_add, Bool.toNat_false, Nat.add_zero]

theorem subResult_eq_ofInt : subResult a b = BitVec.ofInt 8 ((a.toNat : Int) - b.toNat) := by
  apply BitVec.eq_of_toInt_eq
  rw [subResult, BitVec.toInt_sub, BitVec.toInt_ofInt, BitVec.toInt_eq_toNat_bmod, BitVec.toInt_eq_toNat_bmod,
    Int.bmod_sub_bmod, Int.sub_bmod_bmod]

/-- Bits moved past bit 7 are lost, so a count above 7 leaves 0 (rule R169). -/
theorem lshResult_eq_shiftLeft : lshResult a b = a <<< b.toNat := by
  apply BitVec.eq_of_toNat_eq
  rw [lshResult, BitVec.toNat_ofNat, BitVec.toNat_shiftLeft, Nat.shiftLeft_eq]

/-- The quotient is no larger than `a`, so cutting it to a byte loses nothing (rule R170). -/
theorem rshResult_eq_shiftRight : rshResult a b = a >>> b.toNat := by
  have fits : a.toNat / 2 ^ b.toNat < 2 ^ 8 := (Nat.div_le_self _ _).trans_lt a.isLt
  apply BitVec.eq_of_toNat_eq
  rw [rshResult, BitVec.toNat_ofNat, Nat.mod_eq_of_lt fits, BitVec.toNat_ushiftRight, Nat.shiftRight_eq_div_pow]

end Results

/-! ### The zero and sign flags, which every operation takes from its result -/

theorem isZero_iff (res : Byte) : decide (res = 0) = true ↔ res.toNat = 0 :=
  decide_eq_true_iff.trans BitVec.toNat_eq

theorem isNegative_iff (res : Byte) : res.msb = true ↔ 128 ≤ res.toNat := BitVec.msb_eq_true_iff_two_mul_ge.trans (by omega)

/-! ### Flags -/

section Flags
variable (a b res : Byte) (cin : Bool) (st : Status)

/-- The sign bits say whether the signed sum leaves the range of a byte (rule R160). -/
theorem flagsAdd_of_iff : (flagsAdd a b cin st).of = true ↔
    a.toInt + b.toInt + cin.toNat < -128 ∨ 127 < a.toInt + b.toInt + cin.toNat := by
  have ha := a.isLt
  have hb := b.isLt
  have hcin := cin.toNat_le
  simp only [flagsAdd, Bool.and_eq_true, beq_iff_eq, bne_iff_ne, ne_eq, BitVec.msb_eq_decide, decide_eq_decide,
    addResult_toNat, BitVec.toInt_eq_toNat_cond]
  omega

theorem flagsAdd_addFlags : AddFlags a b cin st (flagsAdd a b cin st) :=
  ⟨rfl, decide_eq_true_iff, by rw [← addResult_toNat]; exact isZero_iff _,
    by rw [← addResult_toNat]; exact isNegative_iff _, flagsAdd_of_iff a b cin st⟩

theorem flagsLogic_logicFlags : LogicFlags res st (flagsLogic res st) := ⟨rfl, rfl, isZero_iff res, isNegative_iff res, rfl⟩

theorem flagsShift_shiftFlags (d : Nat) : ShiftFlags res st (flagsShift res d st) := ⟨rfl, isZero_iff res, isNegative_iff res⟩

end Flags

/-- Settles O35: the flags and the result in numbers, and OF as the model computes it, the sign being bit 7. -/
theorem flagsAddInNumbers : Obligations.FlagsAddInNumbers := by
  intro a b cin st
  refine ⟨flagsAdd_addFlags a b cin st, addResult_toNat a b cin, ?_⟩
  simp only [flagsAdd, Bool.and_eq_true, beq_iff_eq, bne_iff_ne, BitVec.msb_eq_getLsbD_last]

/-- Settles O36: the flags in numbers, OF as the model computes it, the sign being bit 7, and SF against OF as JL reads them. -/
theorem flagsSubInNumbers : Obligations.FlagsSubInNumbers := by
  intro a b st
  have flags := flagsSub_subFlags a b st
  refine ⟨flags, ?_, flags.sf_ne_of_iff⟩
  simp only [flagsSub, Bool.and_eq_true, bne_iff_ne, BitVec.msb_eq_getLsbD_last]

end Sys2Proof.Machine
end

section
/-! SUPPORT. The table of the ALU operations with a destination (`42_alu.md` rules R164 to R173), and how an operation of the table
completes: the result in its destination, the flags in SR, and nothing else. -/

namespace Sys2Proof.Machine

/-- A byte written twice holds the second value, whatever list the memory is. -/
theorem Memory.write_write (m : Memory) (adr : Addr) (v w : Byte) : (m.write adr v).write adr w = m.write adr w := by
  induction m with
  | nil => simp [Memory.write]
  | cons c rest ih =>
    obtain below | here | above := Nat.lt_trichotomy c.1 adr.toNat
    · simp [Memory.write, below, ih]
    · simp [Memory.write, here]
    · simp [Memory.write, Nat.lt_asymm above, above.ne']

/-! ### The end of an ALU operation -/

/-- Only SR as the destination could undo the flags (rule R165). -/
theorem aluWrite_reg_completes {rd : Reg} (notSr : rd ≠ .sr) (res : Byte) (flags : Status) (s : State) :
    aluWrite (.reg rd) res flags s = .next { s.withReg rd res with sr := flags } := by
  rw [aluWrite, if_neg (by simpa using notSr), writeDest, writeReg_eq_withReg]
  simp [State.withReg, notSr]

theorem aluWrite_mem (adr : Addr) (res : Byte) (flags : Status) (s : State) :
    aluWrite (.mem adr) res flags s = memWrite adr res { s with sr := flags } := if_neg nofun

/-- The byte that a store replaces is no input of it. -/
theorem memWrite_after_write (adr : Addr) (v w : Byte) (s : State) :
    memWrite adr w { s with mem := s.mem.write adr v } = memWrite adr w s := by
  simp only [memWrite, Memory.write_write]

/-! ### The table -/

/-- The table of the eight operations: `toReg` and `toMem` are an operation's two forms, `res` its result from A, B and the old
flags, `flags` its flags from these and the counter of free values, of which it takes `taken`. Memory is no input of `res` and
`flags` by their types (rule R164). -/
inductive AluRow : (Reg → Instr) → (Addr → Instr) → (Byte → Byte → Status → Byte) → (Byte → Byte → Status → Nat → Status) →
    Nat → Prop where
  | add : AluRow .addR .addA (fun a b _ => addResult a b false) (fun a b st _ => flagsAdd a b false st) 0
  | sub : AluRow .subR .subA (fun a b _ => subResult a b) (fun a b st _ => flagsSub a b st) 0
  | adc : AluRow .adcR .adcA (fun a b st => addResult a b st.cf) (fun a b st _ => flagsAdd a b st.cf st) 0
  | lsh : AluRow .lshR .lshA (fun a b _ => lshResult a b) (fun a b st d => flagsShift (lshResult a b) d st) 1
  | rsh : AluRow .rshR .rshA (fun a b _ => rshResult a b) (fun a b st d => flagsShift (rshResult a b) d st) 1
  | or : AluRow .orR .orA (fun a b _ => a ||| b) (fun a b st _ => flagsLogic (a ||| b) st) 0
  | and : AluRow .andR .andA (fun a b _ => a &&& b) (fun a b st _ => flagsLogic (a &&& b) st) 0
  | xor : AluRow .xorR .xorA (fun a b _ => a ^^^ b) (fun a b st _ => flagsLogic (a ^^^ b) st) 0

section Rows
variable {toReg : Reg → Instr} {toMem : Addr → Instr} {res : Byte → Byte → Status → Byte}
  {flags : Byte → Byte → Status → Nat → Status} {taken : Nat}

theorem AluRow.exec_toReg (row : AluRow toReg toMem res flags taken) (rd : Reg) (s : State) :
    exec (toReg rd) s =
      aluWrite (.reg rd) (res s.a s.b s.sr) (flags s.a s.b s.sr s.draws) { s with draws := s.draws + taken } := by
  cases row <;> rfl

theorem AluRow.exec_toMem (row : AluRow toReg toMem res flags taken) (adr : Addr) (s : State) :
    exec (toMem adr) s =
      memWrite adr (res s.a s.b s.sr) { s with sr := flags s.a s.b s.sr s.draws, draws := s.draws + taken } := by
  cases row <;> exact aluWrite_mem adr _ _ _

/-- An operation completes to both kinds of destination as the statements say, once its row's result and flags are theirs. -/
theorem AluRow.completes (row : AluRow toReg toMem res flags taken) {value : State → Byte} {agrees : State → Status → Prop}
    (result : ∀ s : State, res s.a s.b s.sr = value s) (fits : ∀ s : State, agrees s (flags s.a s.b s.sr s.draws)) :
    AluToReg toReg value agrees ∧ AluToMem toMem value agrees := by
  refine ⟨fun s rd notSr => ⟨_, (row.exec_toReg rd s).trans (aluWrite_reg_completes notSr _ _ _), fits s, ?_⟩,
    fun s adr ram => ⟨_, (row.exec_toMem adr s).trans (memWrite_eq_next.2 ⟨ram, rfl⟩), fits s, rfl, ?_,
      (storesTo_one ram rfl).frame⟩⟩
  · rw [← result s]
    rfl
  · rw [← result s]
    exact Memory.read_write_same s.mem adr _

theorem AluRow.toMem_after_write (row : AluRow toReg toMem res flags taken) (adr : Addr) (v : Byte) (s : State) :
    exec (toMem adr) { s with mem := s.mem.write adr v } = exec (toMem adr) s := by
  rw [row.exec_toMem, row.exec_toMem]
  exact memWrite_after_write adr v _ { s with sr := flags s.a s.b s.sr s.draws, draws := s.draws + taken }

end Rows

theorem aluRow_of_mem {i : Addr → Instr} (alu : i ∈ [Instr.addA, .subA, .adcA, .lshA, .rshA, .orA, .andA, .xorA]) :
    ∃ toReg res flags taken, AluRow toReg i res flags taken := by
  simp only [List.mem_cons, List.not_mem_nil, or_false] at alu
  obtain rfl | rfl | rfl | rfl | rfl | rfl | rfl | rfl := alu
  exacts [⟨_, _, _, _, .add⟩, ⟨_, _, _, _, .sub⟩, ⟨_, _, _, _, .adc⟩, ⟨_, _, _, _, .lsh⟩, ⟨_, _, _, _, .rsh⟩, ⟨_, _, _, _, .or⟩,
    ⟨_, _, _, _, .and⟩, ⟨_, _, _, _, .xor⟩]

/-! ### The operations -/

/-- Settles O37: the row of ADD, whose carry in is 0. -/
theorem addCompletes : Obligations.AddCompletes :=
  AluRow.add.completes (fun _ => addResult_no_carry _ _) (fun _ => flagsAdd_addFlags _ _ _ _)

/-- Settles O38: the row of ADC, whose carry in is the old CF. -/
theorem adcCompletes : Obligations.AdcCompletes :=
  AluRow.adc.completes (fun _ => rfl) (fun _ => flagsAdd_addFlags _ _ _ _)

/-- Settles O39: the row of SUB. -/
theorem subCompletes : Obligations.SubCompletes :=
  AluRow.sub.completes (fun _ => subResult_eq_ofInt _ _) (fun _ => flagsSub_subFlags _ _ _)

/-- Settles O40: the rows of OR, AND and XOR. -/
theorem bitwiseComplete : Obligations.BitwiseComplete :=
  ⟨AluRow.or.completes (fun _ => rfl) (fun _ => flagsLogic_logicFlags _ _),
    AluRow.and.completes (fun _ => rfl) (fun _ => flagsLogic_logicFlags _ _),
    AluRow.xor.completes (fun _ => rfl) (fun _ => flagsLogic_logicFlags _ _)⟩

/-- Settles O41: the rows of LSH and RSH, whose results in numbers are the shifts of the byte. -/
theorem shiftsComplete : Obligations.ShiftsComplete := by
  refine ⟨AluRow.lsh.completes (fun _ => lshResult_eq_shiftLeft _ _) (fun s => ?_),
    AluRow.rsh.completes (fun _ => rshResult_eq_shiftRight _ _) (fun s => ?_)⟩
  · rw [← lshResult_eq_shiftLeft]
    exact flagsShift_shiftFlags _ _ _
  · rw [← rshResult_eq_shiftRight]
    exact flagsShift_shiftFlags _ _ _

/-- Settles O42: none of the three has a destination to refuse or to stop at; 1 is the second operand of INC and DEC. -/
theorem cmpIncDecComplete : Obligations.CmpIncDecComplete := fun s =>
  ⟨⟨_, flagsSub_subFlags s.a s.b s.sr, rfl⟩,
    ⟨_, flagsAdd_addFlags s.a 1 false s.sr, by rw [← addResult_no_carry]; rfl⟩,
    ⟨_, flagsSub_subFlags s.a 1 s.sr, rfl⟩⟩

/-- Settles O44: an operation of the table accesses its destination by one store. -/
theorem memoryDestinationIsNotRead : Obligations.MemoryDestinationIsNotRead := by
  intro s adr v i alu
  obtain ⟨toReg, res, flags, taken, row⟩ := aluRow_of_mem alu
  exact row.toMem_after_write adr v s

/-! ### 16-bit addition -/

/-- Two words are added byte by byte: `carry`, the carry out of the low bytes, goes into the high bytes, whose carry out is that of
the words (rule R168). -/
theorem word_add_by_bytes (m n : Addr) {carry : Bool} (low : carry = true ↔ 256 ≤ (lowByte m).toNat + (lowByte n).toNat) :
    joinBytes (lowByte m + lowByte n) (addResult (highByte m) (highByte n) carry) = m + n
      ∧ (256 ≤ (highByte m).toNat + (highByte n).toNat + carry.toNat ↔ 65536 ≤ m.toNat + n.toNat) := by
  have carryOut : carry.toNat = (m.toNat % 256 + n.toNat % 256) / 256 := by
    have bit := carry.toNat_le
    rw [← Bool.toNat_eq_one, lowByte_toNat, lowByte_toNat] at low
    omega
  constructor
  · apply BitVec.eq_of_toNat_eq
    rw [joinBytes_toNat, addResult_toNat, BitVec.toNat_add, BitVec.toNat_add, carryOut]
    simp only [lowByte_toNat, highByte_toNat]
    omega
  · rw [carryOut, highByte_toNat, highByte_toNat]
    omega

/-- Settles O45: ADD leaves the carry of the low bytes in CF, and ADC adds it to the high bytes; X is not touched by ADC. -/
theorem addThenAdcAddsWords : Obligations.AddThenAdcAddsWords := by
  intro s m n
  obtain ⟨addToX, -⟩ := addCompletes
  obtain ⟨adcToY, -⟩ := adcCompletes
  obtain ⟨t, added, ⟨-, lowCarry, -⟩, after⟩ := addToX { s with a := lowByte m, b := lowByte n } .x (by decide)
  obtain ⟨u, carried, ⟨-, highCarry, -⟩, final⟩ := adcToY { t with a := highByte m, b := highByte n } .y (by decide)
  obtain ⟨sum, carryOut⟩ := word_add_by_bytes m n lowCarry
  have ux : u.x = lowByte m + lowByte n := by rw [final, after]; rfl
  have uy : u.y = addResult (highByte m) (highByte n) t.sr.cf := by rw [final]; rfl
  exact ⟨t, u, added, carried, by rw [ux, uy, sum], highCarry.trans carryOut⟩

end Sys2Proof.Machine
end

section
/-! SUPPORT. Procedures and the stack (`43_stack.md`): what a push leaves at the top of the stack and a pop delivers from it, first
of bytes, then of words; and from these PUSH, POP, CALL, the returns, and the entry into a handler up to its return address. -/

namespace Sys2Proof.Machine

/-! ### Where the stack's bytes are -/

section Addresses
variable {s t : State}

/-- After one push the top of the stack is the byte pushed (rule R191). -/
theorem stackTop_zero_of_pushed (cfg : t.cfg = s.cfg) (sp : t.sp = s.sp - 1) : t.stackTop 0 = s.stackTop 1 := by
  rw [stackTop_zero, cfg, sp, State.stackTop]

/-- After two pushes the top of the stack is the second byte pushed, the first one above it (rules R191, R192). -/
theorem stackTop_of_word_pushed (cfg : t.cfg = s.cfg) (sp : t.sp = s.sp - 2) :
    t.stackTop 0 = s.stackTop 2 ∧ stackAddr t.cfg.stackPage (t.sp + 1) = s.stackTop 1 := by
  have above : s.sp - 2 + 1 = s.sp - 1 := by rw [← byte_sub_one_sub_one, BitVec.sub_add_cancel]
  rw [stackTop_zero, cfg, sp, above, State.stackTop, State.stackTop]
  exact ⟨rfl, rfl⟩

theorem stackTop_one_ne_two (s : State) : s.stackTop 1 ≠ s.stackTop 2 := fun same =>
  absurd (sub_right_injective (stackAddr_inj same)) (by decide)

end Addresses

/-! ### Bytes -/

section Bytes
variable {s : State} {v : Byte} {adr : Addr} {src : Source}

theorem push8_of_writable (ram : s.writable (s.stackTop 1)) :
    push8 v s = .next { s with sp := s.sp - 1, mem := s.mem.write (s.stackTop 1) v, mar := s.stackTop 1 } :=
  push8_eq_next.2 ⟨ram, rfl⟩

/-- A pop of a byte that memory holds draws no free value. -/
theorem pop8_of_held (readable : s.readable (s.stackTop 0)) (held : s.peek (s.stackTop 0) = some v) :
    pop8 s = .next (v, { s with sp := s.sp + 1, mar := s.stackTop 0 }) := by
  rw [stackTop_zero] at readable held ⊢
  rw [pop8, memRead_of_listed readable held, andThen_next]

theorem pop8_delivers (readable : s.readable (s.stackTop 0)) :
    ∃ v d, s.delivers (s.stackTop 0) v
      ∧ pop8 s = .next (v, { s with sp := s.sp + 1, mar := s.stackTop 0, draws := d }) := by
  rw [stackTop_zero] at readable ⊢
  obtain ⟨v, t, popped⟩ := pop8_completes readable
  obtain ⟨-, ⟨d, rfl⟩, delivered⟩ := pop8_next popped
  exact ⟨v, d, delivered, popped⟩

/-- A source is read before SP moves, so the byte that is pushed is the one read in the state before (rules R196 to R198). -/
theorem pushSource_of_read {m : Addr} {d : Nat} (ram : s.writable (s.stackTop 1))
    (read : readSource src s = .next (v, { s with mar := m, draws := d })) :
    pushSource src s
      = .next { s with sp := s.sp - 1, mem := s.mem.write (s.stackTop 1) v, mar := s.stackTop 1, draws := d } := by
  rw [pushSource, read, andThen_next]
  exact push8_of_writable (s := { s with mar := m, draws := d }) ram

end Bytes

/-- Settles O46: the pop reads the byte that the push has listed, and SP has come back to it. -/
theorem popUndoesPush : Obligations.PopUndoesPush := by
  refine ⟨fun s v ram => ?_, fun s readable => ?_⟩
  · have held := Memory.read_write_same s.mem (s.stackTop 1) v
    have top := stackTop_zero_of_pushed (s := s) (t := { s with
      sp := s.sp - 1, mem := s.mem.write (s.stackTop 1) v, mar := s.stackTop 1 }) rfl rfl
    have below : (s.sp - 1).toNat = (s.sp.toNat + 255) % 256 := by rw [BitVec.toNat_sub, Nat.add_comm]; rfl
    exact ⟨_, _, push8_of_writable ram, below, rfl, held, (storesTo_one ram rfl).frame,
      pop8_of_held (.inl (top ▸ ram)) (by rw [top]; exact held), BitVec.sub_add_cancel s.sp 1, rfl⟩
  · rw [← stackTop_zero] at readable ⊢
    obtain ⟨v, d, delivered, popped⟩ := pop8_delivers readable
    exact ⟨v, _, popped, delivered, BitVec.toNat_add s.sp 1, rfl⟩

/-- Settles O48: a constant and a register are always read, a byte of memory where it is readable; the push stores what was read. -/
theorem pushCompletes : Obligations.PushCompletes := by
  intro s ram
  refine ⟨fun imm => ?_, fun rs => ?_, fun adr readable => ?_⟩
  · exact ⟨_, pushSource_of_read (src := .imm imm) ram rfl, rfl, Memory.read_write_same _ _ imm,
      (storesTo_one ram rfl).frame⟩
  · obtain ⟨v, d, delivered, read⟩ := readSource_reg rs s
    exact ⟨v, _, delivered, pushSource_of_read ram read, rfl, Memory.read_write_same _ _ v, (storesTo_one ram rfl).frame⟩
  · obtain ⟨v, d, delivered, read⟩ := readSource_mem readable
    exact ⟨v, _, delivered, pushSource_of_read ram read, rfl, Memory.read_write_same _ _ v, (storesTo_one ram rfl).frame⟩

/-- Settles O49: the destination is written in the state after the pop, SP among the registers it may overwrite. -/
theorem popCompletes : Obligations.PopCompletes := by
  intro s readable
  obtain ⟨v, d, delivered, popped⟩ := pop8_delivers readable
  have written : ∀ dest, popDest dest s
      = writeDest dest v { s with sp := s.sp + 1, mar := s.stackTop 0, draws := d } := fun dest => by
    rw [popDest, popped, andThen_next]
  refine ⟨fun rd => ⟨v, s.stackTop 0, d, delivered, (written (.reg rd)).trans ?_⟩, fun adr ram =>
    ⟨v, _, delivered, (written (.mem adr)).trans (memWrite_eq_next.2 ⟨ram, rfl⟩), rfl, Memory.read_write_same _ _ v,
      (storesTo_one ram rfl).frame⟩⟩
  rw [writeDest, writeReg_eq_withReg]
  rfl

/-! ### SR on the stack -/

/-- A byte that a read of SR delivers restores SR, whatever its free bits are (rules R32, R33). -/
theorem ofByte_of_delivered {s : State} {v : Byte} (delivered : s.regDelivers .sr v) : Status.ofByte v = s.sr := by
  obtain ⟨ie, of, sf, zf, cf⟩ := delivered
  rw [Status.ofByte, ie, of, sf, zf, cf]

/-- Settles O50: POP SR finds the byte that PUSH SR has stored, and that byte restores SR. -/
theorem popSrRestoresPushedFlags : Obligations.PopSrRestoresPushedFlags := by
  intro s between ram
  obtain ⟨-, pushR, -⟩ := pushCompletes s ram
  obtain ⟨v, t, saved, pushed, regs, held, -⟩ := pushR .sr
  have cfg : t.cfg = s.cfg := by rw [regs]
  have sp : t.sp = s.sp - 1 := by rw [regs]
  have top : ({ t with sr := between } : State).stackTop 0 = s.stackTop 1 := stackTop_zero_of_pushed cfg sp
  obtain ⟨popR, -⟩ := popCompletes { t with sr := between } (.inl (by rw [top, cfg]; exact ram))
  obtain ⟨w, m, d, delivered, popped⟩ := popR .sr
  obtain rfl : w = v := delivered v (by rw [top]; exact held)
  exact ⟨t, _, pushed, popped, ofByte_of_delivered saved,
    (congrArg (· + 1) sp).trans (BitVec.sub_add_cancel s.sp 1)⟩

/-! ### Words -/

section Words
variable {s t : State} {v w : Addr}

theorem addr_eq_of_bytes (low : lowByte v = lowByte w) (high : highByte v = highByte w) : v = w := by
  rw [← joinBytes_lowByte_highByte v, low, high, joinBytes_lowByte_highByte]

/-- A pushed word's bytes are both held, since the second is stored elsewhere than the first (rule R192). -/
theorem push16_held (pushed : push16 v s = .next t) :
    t.peek (s.stackTop 1) = some (highByte v) ∧ t.peek (s.stackTop 2) = some (lowByte v) := by
  obtain ⟨-, -, rfl⟩ := push16_next pushed
  exact ⟨(Memory.read_write_other _ _ (stackTop_one_ne_two s)).trans (Memory.read_write_same _ _ _),
    Memory.read_write_same _ _ _⟩

theorem pop16_delivers (low : s.readable (s.stackTop 0)) (high : s.readable (stackAddr s.cfg.stackPage (s.sp + 1))) :
    ∃ v m d, pop16 s = .next (v, { s with sp := s.sp + 2, mar := m, draws := d })
      ∧ s.delivers (s.stackTop 0) (lowByte v) ∧ s.delivers (stackAddr s.cfg.stackPage (s.sp + 1)) (highByte v) := by
  rw [stackTop_zero] at low ⊢
  obtain ⟨v, t, popped⟩ := pop16_completes low high
  obtain ⟨lo, hi, d, rfl, rfl, delivered_low, delivered_high⟩ := pop16_next popped
  exact ⟨_, _, d, popped, by rw [lowByte_joinBytes]; exact delivered_low, by rw [highByte_joinBytes]; exact delivered_high⟩

/-- A pop is the inverse of a push: where SP and the stack are as a push of `v` has left them, it delivers `v` and SP is as it was
before the push (rule R193). -/
theorem pop16_of_word_pushed (cfg : t.cfg = s.cfg) (sp : t.sp = s.sp - 2) (ram1 : s.writable (s.stackTop 1))
    (ram2 : s.writable (s.stackTop 2)) (held_high : t.peek (s.stackTop 1) = some (highByte v))
    (held_low : t.peek (s.stackTop 2) = some (lowByte v)) :
    ∃ m d, pop16 t = .next (v, { t with sp := s.sp, mar := m, draws := d }) := by
  obtain ⟨top, above⟩ := stackTop_of_word_pushed cfg sp
  obtain ⟨w, m, d, popped, low, high⟩ := pop16_delivers (s := t) (.inl (by rw [top, cfg]; exact ram2))
    (.inl (by rw [above, cfg]; exact ram1))
  rw [top] at low
  rw [above] at high
  obtain rfl : w = v := addr_eq_of_bytes (low _ held_low) (high _ held_high)
  rw [sp, BitVec.sub_add_cancel] at popped
  exact ⟨m, d, popped⟩

end Words

/-- Settles O47: the pop delivers the two bytes that the push has left, and a word is its two bytes. -/
theorem wordsOnStackAreLittleEndian : Obligations.WordsOnStackAreLittleEndian := by
  refine ⟨fun s v ram1 ram2 => ?_, fun s low high => ?_⟩
  · obtain ⟨t, pushed⟩ := push16_completes (v := v) ram1 ram2
    obtain ⟨held_high, held_low⟩ := push16_held pushed
    obtain ⟨-, -, after⟩ := push16_next pushed
    have sp : t.sp = s.sp - 2 := by rw [after]
    obtain ⟨m, d, popped⟩ := pop16_of_word_pushed (push16_effect pushed).cfg_eq sp ram1 ram2 held_high held_low
    exact ⟨t, _, pushed, andThen_eq_next.1 pushed, held_low, held_high, sp, (push16_stores pushed).frame, popped, rfl, rfl⟩
  · obtain ⟨v, t, popped⟩ := pop16_completes low high
    obtain ⟨⟨lo, s1⟩, first, rest⟩ := andThen_eq_next.1 popped
    obtain ⟨⟨hi, s2⟩, second, joined⟩ := andThen_eq_next.1 rest
    cases joined
    exact ⟨lo, hi, _, s1, _, first, second, popped, joinBytes_toNat lo hi⟩

/-! ### Calls and returns -/

section Calls
variable {s s1 t : State} {target : Addr} {n : Byte}

/-- What is done after the return address is pushed may move PC, MAR and the counter of free values. -/
theorem calledTo_of_pushed (pushed : push16 s.pc s = .next s1) (target m : Addr) (d : Nat) :
    CalledTo s { s1 with pc := target, mar := m, draws := d } target := by
  obtain ⟨high, low⟩ := push16_held pushed
  refine ⟨?_, high, low, (push16_stores pushed).frame⟩
  obtain ⟨-, -, rfl⟩ := push16_next pushed
  rfl

theorem returnFromStack_completes (low : s.readable (s.stackTop 0))
    (high : s.readable (stackAddr s.cfg.stackPage (s.sp + 1))) :
    ∃ t, returnFromStack s = .next t ∧ ReturnedFrom s t := by
  obtain ⟨v, m, d, popped, delivered_low, delivered_high⟩ := pop16_delivers low high
  exact ⟨_, andThen_eq_next.2 ⟨_, popped, rfl⟩, rfl, delivered_low, delivered_high⟩

/-- The return reads the bytes that the call has stored, so it completes and comes back (rules R195, R237). -/
theorem CalledTo.return_completes (called : CalledTo s t target) (ram1 : s.writable (s.stackTop 1))
    (ram2 : s.writable (s.stackTop 2)) :
    ∃ u, returnFromStack t = .next u ∧ u.pc = s.pc ∧ u.sp = s.sp ∧ u.sr = s.sr := by
  obtain ⟨regs, held_high, held_low, -⟩ := called
  obtain ⟨m, d, popped⟩ := pop16_of_word_pushed (by rw [regs]) (by rw [regs]) ram1 ram2 held_high held_low
  have sr : t.sr = s.sr := by rw [regs]
  exact ⟨_, andThen_eq_next.2 ⟨_, popped, rfl⟩, rfl, rfl, sr⟩

/-! ### The entry into a handler (rule R215) -/

theorem memRead16_completes {adr : Addr} (low : s.readable adr) (high : s.readable (adr + 1)) :
    ∃ v t, memRead16 adr s = .next (v, t) := by
  obtain ⟨lo, s1, first⟩ := memRead_completes low
  obtain ⟨-, ⟨d, rfl⟩, -⟩ := memRead_next first
  obtain ⟨hi, s2, second⟩ := memRead_completes (s := { s with mar := adr, draws := d }) high
  exact ⟨_, s2, andThen_eq_next.2 ⟨_, first, andThen_eq_next.2 ⟨_, second, rfl⟩⟩⟩

theorem intTarget_completes (h : s.hasTarget n) : ∃ v t, intTarget n s = .next (v, t) := by
  rw [State.hasTarget] at h
  rw [intTarget]
  cases shape : s.cfg.intTarget with
  | absent =>
    rw [shape] at h
    exact h.elim
  | uninterpreted | entries base stride => exact ⟨_, _, rfl⟩
  | table base =>
    rw [shape] at h
    obtain ⟨low, high⟩ := h
    exact memRead16_completes low high

theorem State.hasTarget.of_cfg (h : s.hasTarget n) (cfg : t.cfg = s.cfg) : t.hasTarget n := by
  unfold State.hasTarget State.readable
  rw [cfg]
  exact h

theorem State.hasTarget.present (h : s.hasTarget n) : s.cfg.intTarget ≠ .absent := by
  intro absent
  rw [State.hasTarget, absent] at h
  exact h

/-- The vector is read after the two pushes, which have left the parameters alone (log 20). -/
theorem intCall_calledTo (h : s.hasTarget n) (ram1 : s.writable (s.stackTop 1)) (ram2 : s.writable (s.stackTop 2)) :
    ∃ t, intCall n s = .next t ∧ CalledTo s t t.pc := by
  obtain ⟨s1, pushed⟩ := push16_completes (v := s.pc) ram1 ram2
  obtain ⟨v, s2, read⟩ := intTarget_completes (h.of_cfg (push16_effect pushed).cfg_eq)
  refine ⟨setPc v s2, ?_, ?_⟩
  · rw [intCall_of_present h.present, pushed, andThen_next, read, andThen_next]
  · obtain ⟨m, d, rfl⟩ := intTarget_next read
    exact calledTo_of_pushed pushed v m d

end Calls

/-- Settles O51: a push of the return address and a jump. -/
theorem callCompletes : Obligations.CallCompletes := by
  intro s adr ram1 ram2
  obtain ⟨s1, pushed⟩ := push16_completes (v := s.pc) ram1 ram2
  exact ⟨setPc adr s1, andThen_eq_next.2 ⟨s1, pushed, rfl⟩, calledTo_of_pushed pushed adr s1.mar s1.draws⟩

/-- Settles O52: RET and IRET are one operation. -/
theorem returnsComplete : Obligations.ReturnsComplete := fun _ low high =>
  ⟨returnFromStack_completes low high, returnFromStack_completes low high⟩

/-- Settles O53: CALL and INT leave the same stack, from which RET and IRET come back. -/
theorem returnUndoesCall : Obligations.ReturnUndoesCall := by
  intro s ram1 ram2
  refine ⟨fun adr => ?_, fun n h => ?_⟩
  · obtain ⟨t, completes, called⟩ := callCompletes s adr ram1 ram2
    obtain ⟨u, back⟩ := called.return_completes ram1 ram2
    exact ⟨t, u, completes, back⟩
  · obtain ⟨t, completes, called⟩ := intCall_calledTo h ram1 ram2
    obtain ⟨u, back⟩ := called.return_completes ram1 ram2
    exact ⟨t, u, completes, back⟩

end Sys2Proof.Machine
end

section
/-! SUPPORT. The interrupt instructions (`44_interrupt.md`): where `INT_TARGET` sends PC, and the encoding of CLI and SEI, whose
forms only `OPCODE_MAP` names. -/

namespace Sys2Proof

/-- The source gives an open form no opcode, so only `OPCODE_MAP` can (rules R96, R98). -/
theorem opcodeOf_of_isOpen {f : Form} (isOpen : f.isOpen = true) (c : Config) :
    opcodeOf c f = lookupOpcode f c.opcodeMap := by
  have noRow : sourceOpcodes.find? (fun e => e.1 == f) = none := List.find?_eq_none.2 fun e row same => by
    have assigned : e.1.isOpen = false := (source_row_assigned e row).1
    rw [eq_of_beq same, isOpen] at assigned
    cases assigned
  rw [opcodeOf, lookupOpcode_eq_find?, List.find?_append, noRow, Option.none_or, ← lookupOpcode_eq_find?]

/-- An instruction of an open form that has no operands is its opcode byte alone (rule R92). -/
theorem encode_of_isOpen_of_no_operands {i : Instr} {c : Config} (isOpen : i.form.isOpen = true)
    (bare : operandBytes c i = []) : encode c i = (lookupOpcode i.form c.opcodeMap).map fun op => [op] := by
  rw [encode, opcodeOf_of_isOpen isOpen, bare]

end Sys2Proof

namespace Sys2Proof.Machine

section Int
variable {s t : State} {n : Byte} {v : Addr}

/-! ### `INT_TARGET` (rule R215) -/

/-- Of the state, only the parameters and memory count. -/
theorem State.targetIs.of_same_mem (h : s.targetIs n v) (cfg : t.cfg = s.cfg) (mem : t.mem = s.mem) : t.targetIs n v := by
  unfold State.targetIs State.delivers State.peek
  rw [cfg, mem]
  exact h

/-- Whatever its shape, `INT_TARGET` answers with the memory of the state it is evaluated in. -/
theorem intTarget_targetIs (h : intTarget n s = .next (v, t)) : s.targetIs n v := by
  rw [intTarget] at h
  rw [State.targetIs]
  cases shape : s.cfg.intTarget with
  | absent => rw [shape] at h; cases h
  | uninterpreted | entries base stride => rw [shape] at h; cases h; rfl
  | table base =>
    rw [shape] at h
    obtain ⟨lo, hi, -, rfl, -, low, high⟩ := memRead16_next h
    dsimp only
    rw [lowByte_joinBytes, highByte_joinBytes]
    exact ⟨low, high⟩

/-- `INT_TARGET` is evaluated after the two pushes, and nothing stores to memory after that (log 20). -/
theorem intCall_targetIs (h : intCall n s = .next t) : t.targetIs n t.pc := by
  obtain ⟨-, s1, v, s2, -, read, rfl⟩ := intCall_next h
  have target : s1.targetIs n v := intTarget_targetIs read
  obtain ⟨m, d, rfl⟩ := intTarget_next read
  exact target.of_same_mem rfl rfl

theorem intCall_of_absent (absent : s.cfg.intTarget = .absent) : intCall n s = .refused .intTargetOpen := if_pos absent

/-- Of the state before a call, the counter of free values does not count. -/
theorem CalledTo.of_draws {d : Nat} (called : CalledTo { s with draws := d } t v) : CalledTo s t v := called

end Int

/-- Settles O54: both forms enter the handler, `INT reg` that of a number its register delivers. -/
theorem intCompletes : Obligations.IntCompletes := by
  intro s ram1 ram2
  refine ⟨fun n h => ?_, fun rs h => ?_⟩
  · obtain ⟨t, completes, called⟩ := intCall_calledTo h ram1 ram2
    exact ⟨t, completes, called, intCall_targetIs completes⟩
  · obtain ⟨n, d, delivered, meaning⟩ := exec_intR rs s
    have target : ({ s with draws := d } : State).hasTarget n := (h n delivered).of_cfg rfl
    obtain ⟨t, completes, called⟩ := intCall_calledTo target ram1 ram2
    exact ⟨n, t, delivered, meaning.trans completes, called.of_draws, intCall_targetIs completes⟩

/-- Settles O55: the entry into the handler is refused before its pushes, whatever number a register delivers. -/
theorem intWithoutTargetIsRefused : Obligations.IntWithoutTargetIsRefused := by
  intro s absent
  refine ⟨fun n => intCall_of_absent absent, fun rs => ?_⟩
  obtain ⟨n, d, -, meaning⟩ := exec_intR rs s
  exact meaning.trans (intCall_of_absent absent)

/-- Settles O56: both forms are open and without operands; each operation is a write of IE. -/
theorem cliSeiComplete : Obligations.CliSeiComplete := fun _ =>
  ⟨⟨encode_of_isOpen_of_no_operands rfl rfl, rfl⟩, encode_of_isOpen_of_no_operands rfl rfl, rfl⟩

end Sys2Proof.Machine
end

section
/-! SUPPORT. HLT, and the machine it halts (`45_halt.md` rule R220, `10_state.md` rule R39). -/

namespace Sys2Proof.Machine

section Halt
variable {s : State}

/-- The step of rule R39's machine; that it is to itself is the model's choice (log 13). -/
theorem step_of_halted (halted : s.halted = true) : step s = .next s := if_pos halted

theorem exec_hlt (s : State) : exec .hlt s = .next { s with halted := true } := rfl

/-- HLT has no operands: its one opcode byte is the whole instruction, and the last byte that MAR addressed. -/
theorem step_of_hlt_byte (running : s.halted = false) (readable : s.readable s.pc) (held : s.peek s.pc = some 0xFF) :
    step s = exec .hlt { s with pc := s.pc + 1, mar := s.pc } := by
  have code : s.codeAt s.pc [0xFF] := ⟨readable, held, trivial⟩
  have decodes : decode s.cfg [0xFF] = .ok (.hlt, []) := (source_word_decodes (i := .hlt) (by decide) rfl).2
  simpa using step_of_codeAt running code decodes

end Halt

/-- Settles O57: the fetch moves PC past the one byte, HLT sets the latch, and a set latch keeps the next step from fetching. -/
theorem hltCompletes : Obligations.HltCompletes := by
  intro s
  refine ⟨exec_hlt s, fun running readable held => ?_⟩
  have halts : step s = .next { s with halted := true, pc := s.pc + 1, mar := s.pc } :=
    (step_of_hlt_byte running readable held).trans (exec_hlt _)
  exact ⟨_, halts, rfl, step_of_halted rfl⟩

end Sys2Proof.Machine
end

section
/-! SUPPORT. Which instructions reach IE (`60_exceptions.md` rule R233), and SR as the destination of an ALU operation
(`42_alu.md` rule R165). -/

namespace Sys2Proof.Machine

/-- What is left of the named destinations once the ALU operations are set aside: those of MOV and POP. -/
theorem move_or_pop_of_namedDest {i : Instr} {rd : Reg} (named : namedDest i = some rd) (alu : ¬ isAlu i) :
    (∃ rs, i = .movRR rd rs) ∨ (∃ v, i = .movRI rd v) ∨ (∃ adr, i = .movRA rd adr) ∨ i = .popR rd := by
  cases i with
  | movRR _ rs => cases named; exact .inl ⟨rs, rfl⟩
  | movRI _ v => cases named; exact .inr (.inl ⟨v, rfl⟩)
  | movRA _ adr => cases named; exact .inr (.inr (.inl ⟨adr, rfl⟩))
  | popR => cases named; exact .inr (.inr (.inr rfl))
  | addR | subR | adcR | lshR | rshR | orR | andR | xorR => exact absurd trivial alu
  | _ => cases named

/-- Of the changes an instruction can make, only those of CLI and SEI and of a named SR reach IE; the transfers, INT and IRET
among them, leave SR as it is (rule R233). -/
theorem exec_ie {i : Instr} {s t : State} (h : exec i s = .next t) :
    t.sr.ie = s.sr.ie ∨ (i = .cli ∨ i = .sei) ∨ (namedDest i = some .sr ∧ ¬ isAlu i) := by
  by_cases named : namedDest i = some .sr
  · by_cases alu : isAlu i
    · exact .inl ((flagsChangeOnlyByAluOrSr i s t h).2 alu)
    · exact .inr (.inr ⟨named, alu⟩)
  · cases exec_regChange h with
    | move | stack => exact .inl (by simp [named])
    | alu _ _ _ _ _ _ _ ie => exact .inl (by simp [named, ie])
    | accumulator _ _ _ ie => exact .inl ie
    | jump | call | halt => exact .inl rfl
    | enable _ op => exact .inr (.inl op)

/-- Settles O25: of the instructions that can change IE, those but CLI and SEI name SR and are no ALU operation. -/
theorem ieChangesOnlyByCliSeiOrSr : Obligations.IeChangesOnlyByCliSeiOrSr := by
  intro i s t h changed
  obtain same | (cli | sei) | ⟨named, alu⟩ := exec_ie h
  · exact absurd same changed
  · exact .inl cli
  · exact .inr (.inl sei)
  · exact .inr (.inr (move_or_pop_of_namedDest named alu))

/-- The refusal comes before the flags are written (rule R165; its being a refusal is the model's choice, log 19). -/
theorem aluWrite_to_sr (res : Byte) (flags : Status) (s : State) : aluWrite (.reg .sr) res flags s = .refused .aluDestSR :=
  if_pos rfl

theorem AluRow.refuses_sr {toReg : Reg → Instr} {toMem : Addr → Instr} {res : Byte → Byte → Status → Byte}
    {flags : Byte → Byte → Status → Nat → Status} {taken : Nat} (row : AluRow toReg toMem res flags taken) (s : State) :
    exec (toReg .sr) s = .refused .aluDestSR :=
  (row.exec_toReg .sr s).trans (aluWrite_to_sr _ _ _)

/-- Settles O43: every row of the table of operations ends in one write, and that write refuses SR. -/
theorem aluToSrIsRefused : Obligations.AluToSrIsRefused := fun s =>
  ⟨AluRow.add.refuses_sr s, AluRow.sub.refuses_sr s, AluRow.adc.refuses_sr s, AluRow.lsh.refuses_sr s,
    AluRow.rsh.refuses_sr s, AluRow.or.refuses_sr s, AluRow.and.refuses_sr s, AluRow.xor.refuses_sr s⟩

end Sys2Proof.Machine
end

section
/-! SUPPORT. The halt latch at the start of a step (`10_state.md` rule R39). -/

namespace Sys2Proof.Machine

/-- Settles O9: the latch is tested before the fetch, and where it is set the step ends there. -/
theorem haltedStaysAsItIs : Obligations.HaltedStaysAsItIs := fun _ halted => step_of_halted halted

end Sys2Proof.Machine
end
